-- ==== Sys2Proof/Word.lean ====
section
/-! DEFINITION. The words of the hardware and the pair of line levels (00_scope.md R7, R9, R13). -/

namespace Sys2Proof

/-- A byte: bit 7 is the most significant, bit 0 the least (R9). -/
abbrev Byte := BitVec 8

/-- A frame as the 40-bit vector `F[39:0]`: `F[39]` is the first bit on the wire, `F[0]` the last (R9). -/
abbrev Frame := BitVec 40

/-- A device code, 16 bits: high byte `[15:8]`, low byte `[7:0]` (R7, R9). -/
abbrev DeviceWord := BitVec 16

/-- A line state `(RTS, DTR)`: each `true` for asserted, `false` for cleared (R13, R36).
"Asserted" and "cleared" are logical values; no electrical level is modelled (R13). -/
structure Line where
  /-- the level driven on Request To Send; bit 1 of the `LINE2` word -/
  rts : Bool
  /-- the level driven on Data Terminal Ready; bit 0 of the `LINE2` word -/
  dtr : Bool
  deriving DecidableEq, Repr, Inhabited

end Sys2Proof
end

