-- ==== Sys2Proof/Syntax.lean ====
section
/-! DEFINITION. The operands, the instructions of spec/opcode_table.json and the caller's operations. -/

namespace Sys2Proof

/-- HouseCode, the 16 letters A to P (10_state.md R31): a closed enumeration. -/
inductive House where
  | A | B | C | D | E | F | G | H | I | J | K | L | M | N | O | P
  deriving DecidableEq, Repr

/-- DeviceAddress, the 16 device slots 1 to 16 (10_state.md R31). -/
inductive Device where
  | d1 | d2 | d3 | d4 | d5 | d6 | d7 | d8 | d9 | d10 | d11 | d12 | d13 | d14 | d15 | d16
  deriving DecidableEq, Repr

/-- CommandKind, the eight commands in the order the source lists them (10_state.md R31). `On` and `Off` are
`turnOn` and `turnOff` here. -/
inductive Command where
  | turnOn | turnOff | dim | bright | allOn | allOff | lampsOn | lampsOff
  deriving DecidableEq, Repr

/-- Device-scoped commands, On and Off, need a device; the other six are house-scoped (00_scope.md R15). -/
def Command.deviceScoped : Command → Bool
  | .turnOn | .turnOff => true
  | .dim | .bright | .allOn | .allOff | .lampsOn | .lampsOff => false

/-- The instructions: one constructor per row of spec/opcode_table.json. Family CMD takes a house and an
optional device (40_frame_encoder.md R130); family SIG takes no operand (41_line_signaler.md). -/
inductive Instr where
  /-- `ON` (R134) -/
  | turnOn (house : House) (device : Option Device)
  /-- `OFF` (R135) -/
  | turnOff (house : House) (device : Option Device)
  /-- `DIM` (R136) -/
  | dim (house : House) (device : Option Device)
  /-- `BRIGHT` (R137) -/
  | bright (house : House) (device : Option Device)
  /-- `ALL_ON` (R138) -/
  | allOn (house : House) (device : Option Device)
  /-- `ALL_OFF` (R139) -/
  | allOff (house : House) (device : Option Device)
  /-- `LAMPS_ON` (R140) -/
  | lampsOn (house : House) (device : Option Device)
  /-- `LAMPS_OFF` (R141) -/
  | lampsOff (house : House) (device : Option Device)
  /-- `RESET` (R174) -/
  | reset
  /-- `BIT0` (R177) -/
  | bit0
  /-- `BIT1` (R176) -/
  | bit1
  /-- `STANDBY` (R175) -/
  | standby
  deriving DecidableEq, Repr

/-- The instruction of family CMD that the source writes `encode(house, device, command)` (30_encoding.md R115). -/
def Instr.ofCommand (h : House) (d : Option Device) : Command → Instr
  | .turnOn => .turnOn h d
  | .turnOff => .turnOff h d
  | .dim => .dim h d
  | .bright => .bright h d
  | .allOn => .allOn h d
  | .allOff => .allOff h d
  | .lampsOn => .lampsOn h d
  | .lampsOff => .lampsOff h d

/-- What a caller can ask of the machine (30_encoding.md R116, 70_reset_and_hazards.md R303): an instruction,
given by its encoded word or by its operands, or one of the four pseudo-operations, which have no encoding of
their own. -/
inductive CallerOp where
  /-- an instruction as the bytes of its encoding, decoded when the operation is taken (log entry 13) -/
  | word (bytes : List Byte)
  /-- an instruction given by its operands, as the call `encode(h, d, c)` or a call of a line signal -/
  | call (i : Instr)
  /-- `SENDBIT b` (R180) -/
  | sendBit (b : Bool)
  /-- `SENDBYTE v` (R214) -/
  | sendByte (v : Byte)
  /-- `TRANSMIT F` (R201): any 40-bit value (R112) -/
  | transmit (F : Frame)
  /-- `SEND h d c` (R226) -/
  | send (h : House) (d : Option Device) (c : Command)
  deriving DecidableEq, Repr

end Sys2Proof
end

