-- ==== Sys2Proof/Config.lean ====
section
/-! DEFINITION. What an implementation fixes and what the spec leaves open: the parameters of 00_scope.md R8. -/

namespace Sys2Proof

/-- A value of `IoError`: opaque to the block, which never inspects it (R252). The spec takes its type as a
parameter with at least one value; the first three are the source's examples, `code` stands for every other
error the operating system can report (DESIGN CHOICE, log entry 18). -/
inductive IoError where
  | notFound
  | permissionDenied
  | deviceBusy
  | code (n : Nat)
  deriving DecidableEq, Repr, Inhabited

/-- The serial driver's answer to one line write (the oracle `IO_FAIL`, R8, R170, R253). A failing answer also
carries the levels the lines are left at, which R259 leaves open: any of the four (log entries 6 and 7). -/
inductive IoAnswer where
  | ok
  | fail (e : IoError) (left : Line)
  deriving DecidableEq, Repr, Inhabited

/-- FREE VALUE. `LINE_AT_OPEN`: the line levels before the first write (R8, R45); no value is chosen
(log entry 5). -/
opaque Config.lineAtOpen : Line

/-- FREE VALUE. The driver's answer to the n-th line write, used when State lists no answer for it (R253,
log entry 6). -/
opaque Config.ioAnswer : Nat → IoAnswer

/-- The two delay parameters `T_SETTLE` and `T_COMMAND`, least durations (R8). They are OPEN: a statement about
durations holds for all values of this structure. The spec gives no unit and no resolution (R8, R270): whole
nanoseconds are the model's own (DESIGN CHOICE, log entry 30). -/
structure Timing where
  settle : Nat
  command : Nat
  deriving DecidableEq, Repr

/-- The constraints R8 (with D6, D7) puts on the two parameters: `0 < T_SETTLE < 1 ms` and
`100 ms ≤ T_COMMAND < 1000 ms`, in the model's nanoseconds (log entry 30). -/
abbrev Timing.Legal (t : Timing) : Prop :=
  0 < t.settle ∧ t.settle < 1000000 ∧ 100000000 ≤ t.command ∧ t.command < 1000000000

/-- The three constant code tables, the same in every state (R40). R8 gives them values and leaves them open at
once (D2, D3, D4): the spec's own contents are `Sys2Proof.Machine.specTables`, and the machine over any tables is
`Sys2Proof.Machine.stepWith`. -/
structure Tables where
  house : House → Byte
  device : Device → DeviceWord
  command : Command → Byte

end Sys2Proof
end

