-- ==== Sys2Proof/WellFormed.lean ====
section
/-! DEFINITION. Well-formed instructions: the normalised inputs of 30_encoding.md R110, those an encoding stands for. -/

namespace Sys2Proof

/-- R110: a device-scoped instruction names a device (the 32 triples without one are illegal and raise
`DeviceRequired`). -/
def Instr.deviceGiven : Instr → Bool
  | .turnOn _ d | .turnOff _ d => d.isSome
  | .dim _ _ | .bright _ _ | .allOn _ _ | .allOff _ _ | .lampsOn _ _ | .lampsOff _ _ => true
  | .reset | .bit0 | .bit1 | .standby => true

/-- R110: a house-scoped instruction in normal form names no device. With one it is legal and runs, but it is
encoded exactly as without, so no encoding stands for it alone (R102). -/
def Instr.deviceAbsent : Instr → Bool
  | .turnOn _ _ | .turnOff _ _ => true
  | .dim _ d | .bright _ d | .allOn _ d | .allOff _ d | .lampsOn _ d | .lampsOff _ d => d.isNone
  | .reset | .bit0 | .bit1 | .standby => true

/-- Well-formed: one of the 608 normalised inputs of family CMD (R110) or one of the four line signals (R104).
Every other instruction has a meaning too (`exec` is total); this says only that an encoding stands for it. -/
def Instr.wellFormed (i : Instr) : Bool := i.deviceGiven && i.deviceAbsent

end Sys2Proof
end

