-- ==== Sys2Proof/Decode.lean ====
section
/-! DEFINITION. Decoding of the two formats `FRAME40` and `LINE2`, total and rejecting by name, and the encoder
written from the bit layouts of the spec (30_encoding.md R90, R100 to R104). -/

namespace Sys2Proof

/-- Why the bytes are no encoding of an instruction (30_encoding.md R111, R113). -/
inductive DecodeError where
  /-- neither the five bytes of a frame (R90) nor the one byte of a line word -/
  | badLength
  /-- a byte that holds a line word has a bit above bit 1 set (log entry 13) -/
  | badLineByte
  /-- bytes 0 and 1 are not `D5 AA` (R91) -/
  | wrongHeader
  /-- byte 4 is not `AD` (R91) -/
  | wrongFooter
  /-- header and footer are right and the frame matches no row of the opcode map (R101) -/
  | noRow
  deriving DecidableEq, Repr

/-! ### The fields -/

/-- The 4-bit protocol code of a house (R96, column "4-bit code"). Twelve of the sixteen are from general
knowledge, not from the source (PRESUMED, log entry 1). -/
def houseNibble : House → BitVec 4
  | .A => 0b0110 | .B => 0b0111 | .C => 0b0100 | .D => 0b0101
  | .E => 0b1000 | .F => 0b1001 | .G => 0b1010 | .H => 0b1011
  | .I => 0b1110 | .J => 0b1111 | .K => 0b1100 | .L => 0b1101
  | .M => 0b0000 | .N => 0b0001 | .O => 0b0010 | .P => 0b0011

/-- The house whose 4-bit code is `n` (R102: R96 is a bijection). -/
def houseOfNibble (n : BitVec 4) : House :=
  match n.toNat with
  | 0 => .M | 1 => .N | 2 => .O | 3 => .P
  | 4 => .C | 5 => .D | 6 => .A | 7 => .B
  | 8 => .E | 9 => .F | 10 => .G | 11 => .H
  | 12 => .K | 13 => .L | 14 => .I | _ => .J

/-- The device index `i = device - 1` as four bits (R97). -/
def deviceIndex : Device → BitVec 4
  | .d1 => 0 | .d2 => 1 | .d3 => 2 | .d4 => 3 | .d5 => 4 | .d6 => 5 | .d7 => 6 | .d8 => 7
  | .d9 => 8 | .d10 => 9 | .d11 => 10 | .d12 => 11 | .d13 => 12 | .d14 => 13 | .d15 => 14 | .d16 => 15

/-- The device whose index is `i` (R102: `device = 1 + i`). -/
def deviceOfIndex (i : BitVec 4) : Device :=
  match i.toNat with
  | 0 => .d1 | 1 => .d2 | 2 => .d3 | 3 => .d4 | 4 => .d5 | 5 => .d6 | 6 => .d7 | 7 => .d8
  | 8 => .d9 | 9 => .d10 | 10 => .d11 | 11 => .d12 | 12 => .d13 | 13 => .d14 | 14 => .d15 | _ => .d16

/-! ### A frame and its five bytes -/

/-- Byte `j` of a frame, `F[39 - 8j : 32 - 8j]`, byte 0 first on the wire (R9, R63). -/
def frameByte (F : Frame) (j : Nat) : Byte := F.extractLsb' (32 - 8 * j) 8

/-- The five bytes of a frame in wire order (R9, R63). -/
def frameBytes (F : Frame) : List Byte :=
  [frameByte F 0, frameByte F 1, frameByte F 2, frameByte F 3, frameByte F 4]

/-- The frame `B0 ++ B1 ++ B2 ++ B3 ++ B4` (R9). -/
def frameOfBytes (b0 b1 b2 b3 b4 : Byte) : Frame := b0 ++ b1 ++ b2 ++ b3 ++ b4

/-! ### The opcode map of family CMD (R101) -/

/-- One row of the opcode map: a frame `F` selects it when `F &&& mask = pattern` (R101). -/
structure OpRow where
  command : Command
  pattern : Frame
  mask : Frame
  deriving DecidableEq, Repr

/-- The eight rows of R101, which are those of spec/opcode_table.json. Four command codes and the places of the
device bits are from general knowledge (PRESUMED, log entries 2 and 3). -/
def opcodeMap : List OpRow :=
  [⟨.turnOn, 0xD5AA0000AD, 0xFFFF0BA7FF⟩,
   ⟨.turnOff, 0xD5AA0020AD, 0xFFFF0BA7FF⟩,
   ⟨.dim, 0xD5AA0098AD, 0xFFFF0FFFFF⟩,
   ⟨.bright, 0xD5AA0088AD, 0xFFFF0FFFFF⟩,
   ⟨.allOn, 0xD5AA0091AD, 0xFFFF0FFFFF⟩,
   ⟨.allOff, 0xD5AA0080AD, 0xFFFF0FFFFF⟩,
   ⟨.lampsOn, 0xD5AA0094AD, 0xFFFF0FFFFF⟩,
   ⟨.lampsOff, 0xD5AA0084AD, 0xFFFF0FFFFF⟩]

/-- A frame matches a row (R101). -/
def OpRow.matchesFrame (r : OpRow) (F : Frame) : Bool := F &&& r.mask == r.pattern

/-- The house field, `F[23:20]` (R102). -/
def frameHouse (F : Frame) : House := houseOfNibble (F.extractLsb' 20 4)

/-- The device field: `F[18]`, `F[14]`, `F[11]`, `F[12]` are the index bits 3, 2, 1, 0 (R102). -/
def frameDevice (F : Frame) : Device :=
  deviceOfIndex (F.extractLsb' 18 1 ++ F.extractLsb' 14 1 ++ F.extractLsb' 11 1 ++ F.extractLsb' 12 1)

/-- The instruction of a matched row: a device for On and Off, none for the other six (R102). -/
def rowInstr (c : Command) (F : Frame) : Instr :=
  Instr.ofCommand (frameHouse F) (if c.deviceScoped then some (frameDevice F) else none) c

/-- Why a frame that stands for no command is refused (R111): its header, its footer, or its middle bytes. -/
def frameRefusal (F : Frame) : DecodeError :=
  if F.extractLsb' 24 16 ≠ 0xD5AA then .wrongHeader
  else if F.extractLsb' 0 8 ≠ 0xAD then .wrongFooter
  else .noRow

/-- Decoding a frame back to a command (R102), or the reason why it is none of the 608 frames (R111). -/
def decodeFrame (F : Frame) : Except DecodeError Instr :=
  match opcodeMap.find? (·.matchesFrame F) with
  | some r => .ok (rowInstr r.command F)
  | none => .error (frameRefusal F)

/-! ### The line words of family SIG (R104) -/

/-- Decoding a `LINE2` word: RTS in bit 1, DTR in bit 0; the code space is full (R104, R113). -/
def decodeLine (v : BitVec 2) : Instr :=
  match v.toNat with
  | 0 => .reset
  | 1 => .bit0
  | 2 => .bit1
  | _ => .standby

/-! ### Bytes -/

/-- The instruction that the bytes of one word encode: five bytes in wire order are a `FRAME40` word (R90, R63),
one byte with its upper six bits zero is a `LINE2` word (R104; the byte is the model's container, log entry 13).
There is no length to decode and no prefix (R114). -/
def decode : List Byte → Except DecodeError Instr
  | [v] => if v.extractLsb' 2 6 = 0 then .ok (decodeLine (v.extractLsb' 0 2)) else .error .badLineByte
  | [b0, b1, b2, b3, b4] => decodeFrame (frameOfBytes b0 b1 b2 b3 b4)
  | _ => .error .badLength

/-! ### The encoder, from the layouts of R100 -/

/-- The layout `11010101 10101010 hhhh0u00 0a0bc000 10101101` of On and, with bit 5 of the fourth byte set, of
Off (R100): `u`, `a`, `b`, `c` are the index bits 3, 2, 0, 1. -/
def deviceLayout (off : BitVec 1) (h : House) (d : Device) : Frame :=
  let i := deviceIndex d
  0b11010101#8 ++ 0b10101010#8 ++ houseNibble h ++ 0b0#1 ++ i.extractLsb' 3 1 ++ 0b00#2 ++ 0b0#1 ++
    i.extractLsb' 2 1 ++ off ++ i.extractLsb' 0 1 ++ i.extractLsb' 1 1 ++ 0b000#3 ++ 0b10101101#8

/-- The layout `11010101 10101010 hhhh0000 cccccccc 10101101` of the house-scoped commands (R100). -/
def houseLayout (code : Byte) (h : House) : Frame :=
  0b11010101#8 ++ 0b10101010#8 ++ houseNibble h ++ 0b0000#4 ++ code ++ 0b10101101#8

/-- The word of an instruction as bytes, `none` where no encoding stands for the instruction (a missing device,
R133; a device a house-scoped command cannot carry, R94). Written from the layouts of R100 and R104. -/
def encode : Instr → Option (List Byte)
  | .turnOn h (some d) => some (frameBytes (deviceLayout 0 h d))
  | .turnOff h (some d) => some (frameBytes (deviceLayout 1 h d))
  | .turnOn _ none | .turnOff _ none => none
  | .dim h none => some (frameBytes (houseLayout 0b10011000 h))
  | .bright h none => some (frameBytes (houseLayout 0b10001000 h))
  | .allOn h none => some (frameBytes (houseLayout 0b10010001 h))
  | .allOff h none => some (frameBytes (houseLayout 0b10000000 h))
  | .lampsOn h none => some (frameBytes (houseLayout 0b10010100 h))
  | .lampsOff h none => some (frameBytes (houseLayout 0b10000100 h))
  | .dim _ (some _) | .bright _ (some _) | .allOn _ (some _) => none
  | .allOff _ (some _) | .lampsOn _ (some _) | .lampsOff _ (some _) => none
  | .reset => some [0b00]
  | .bit0 => some [0b01]
  | .bit1 => some [0b10]
  | .standby => some [0b11]

/-! ### The numbering of spec/opcode_table.json -/

/-- The bytes of the word that the opcode table numbers `w`. A row of format `FRAME40` is one number of 40 bits,
`F[39:0]` (R9), stored in wire order; a row of format `LINE2` is held by one byte. -/
def tableWordBytes (nbits w : Nat) : List Byte :=
  if nbits ≤ 8 then [BitVec.ofNat 8 (w % 2 ^ nbits)]
  else if nbits ≤ 40 then frameBytes (BitVec.ofNat 40 (w % 2 ^ nbits))
  else []

/-- The instruction the decoder reads from the word that the opcode table numbers `w`. -/
def decodeTableWord (nbits w : Nat) : Option Instr :=
  match decode (tableWordBytes nbits w) with
  | .ok i => some i
  | .error _ => none

end Sys2Proof
end

