-- ==== Sys2Proof/Machine/State.lean ====
section
/-! DEFINITION. The state the spec gives the machine (10_state.md), as plain data, and its value at reset. -/

namespace Sys2Proof.Machine

/-- The hidden state of the dongle (R42): no rule of the block reads it. -/
inductive Dongle where
  | unknown
  | idle
  deriving DecidableEq, Repr

/-- The two error kinds (60_exceptions.md R250). -/
inductive OpError where
  /-- a device-scoped command without a device (R251) -/
  | deviceRequired
  /-- a line write the serial driver reported as failed; the value is handed on verbatim (R252) -/
  | ioError (e : IoError)
  deriving DecidableEq, Repr

/-- What an operation hands to its caller (00_scope.md R19, 10_state.md R37). -/
inductive Result where
  /-- `encode` returned a frame -/
  | frame (F : Frame)
  /-- a signal, a composite of signals or a transmission succeeded -/
  | ok
  /-- the operation ended with an error -/
  | err (e : OpError)
  deriving DecidableEq, Repr

/-- The events of a trace (00_scope.md R14). -/
inductive Event where
  /-- `W(r, d)`: a line write that succeeded -/
  | wrote (l : Line)
  /-- `X(r, d, e)`: a line write of `(r, d)` that failed with `e` -/
  | failed (l : Line) (e : IoError)
  /-- `S`: a settle delay elapsed -/
  | settled
  /-- `C`: a command delay elapsed -/
  | commandWaited
  deriving DecidableEq, Repr

/-- The transient registers: they exist only from the start to the end of one transmission (R30, R44). -/
structure Transmission where
  /-- `FR`, the frame being transmitted: written once, at the start (R32) -/
  fr : Frame
  /-- `SPC`, the schedule position, 0 to 168 (R34) -/
  spc : Nat
  /-- `ERR`: `none`, or the error of the first failing line write (R37) -/
  err : Option IoError
  deriving DecidableEq, Repr

/-- The state of the machine. `tx` to `result` are the spec's; `ops`, `answers` and `asked` are the model's own:
the inputs the environment will give, as plain data. -/
structure State where
  /-- the transient registers; `none` is the spec's "no transmitter state", `PH = IDLE` (R33, R45) -/
  tx : Option Transmission
  /-- `LINE`, the control-line output register (R36) -/
  line : Line
  /-- `DONGLE`, hidden (R42) -/
  dongle : Dongle
  /-- the trace of the operation in progress, or of the last one (R14, R201) -/
  trace : List Event
  /-- what the last operation handed to its caller; `none` while one is in progress (R19) -/
  result : Option Result
  /-- the caller's operations to come, the next one first (R303; log entry 12) -/
  ops : List CallerOp
  /-- the serial driver's answers to the line writes to come, the next one first (R253; log entry 6) -/
  answers : List IoAnswer
  /-- how many line writes the driver has answered: the argument of the free oracle (log entry 6) -/
  asked : Nat
  deriving DecidableEq, Repr

/-- Why the machine stops with a fault. -/
inductive Fault where
  /-- Raised by `stepTransmission` in a state whose `SPC` is above 168, which 10_state.md R34 says does not exist.
  No run reaches such a state. SAFE: the model stops where there is no hardware state at all (log entry 22). -/
  | spcOutOfRange
  deriving DecidableEq, Repr

/-- Why the machine refuses an operation. -/
inductive Refusal where
  /-- Raised by an arm of `exec` for an instruction that has no meaning yet. SAFE: it only stops. -/
  | notModelled (mnemonic : String)
  /-- Raised by the machine when the caller's next operation is a word that encodes no instruction: the spec
  gives such a frame no command meaning and treats it as "refuse" (30_encoding.md R111,
  93_implementation_defined.md U6). SAFE: it only stops. -/
  | notAnOperation (why : DecodeError)
  /-- Raised by a line signal, a composite of signals or a start of a transmission while a transmission is in
  progress: the spec says a model refuses it (70_reset_and_hazards.md R309, U7). SAFE: it only stops. -/
  | handleBusy
  deriving DecidableEq, Repr

/-- The machine right after `open`, before the first operation (R45): no transmission, `DONGLE = UNKNOWN`,
`LINE` at the free value `LINE_AT_OPEN`. The trace, the result and the three lists of inputs are empty
(DESIGN CHOICE, log entries 6, 12 and 16). -/
def State.reset : State where
  tx := none
  line := Config.lineAtOpen
  dongle := .unknown
  trace := []
  result := none
  ops := []
  answers := []
  asked := 0

end Sys2Proof.Machine
end

