-- ==== Sys2Proof/Machine/Operands.lean ====
section
/-! DEFINITION. The operands: the three code tables and their reads (30_encoding.md R92 to R98), the line values
of the signals (R104, R105), and the bits of a byte and of a frame in wire order (20_memory.md R63, R64). -/

namespace Sys2Proof.Machine

/-! ### The code tables: `MemRead(T, i, n)`, total and without side effect (R62, R145) -/

/-- `HOUSE_CODE` (R96). D, F, J and O are fixed by the source's vectors (R99); the other twelve are from general
knowledge (PRESUMED, log entry 1). -/
def houseCode : House → Byte
  | .A => 0x60 | .B => 0x70 | .C => 0x40 | .D => 0x50
  | .E => 0x80 | .F => 0x90 | .G => 0xA0 | .H => 0xB0
  | .I => 0xE0 | .J => 0xF0 | .K => 0xC0 | .L => 0xD0
  | .M => 0x00 | .N => 0x10 | .O => 0x20 | .P => 0x30

/-- `DEVICE_CODE` (R97). Devices 1 and 9 are fixed by the source's vectors (R99); the other fourteen are from
general knowledge (PRESUMED, log entry 2). -/
def deviceCode : Device → DeviceWord
  | .d1 => 0x0000 | .d2 => 0x0010 | .d3 => 0x0008 | .d4 => 0x0018
  | .d5 => 0x0040 | .d6 => 0x0050 | .d7 => 0x0048 | .d8 => 0x0058
  | .d9 => 0x0400 | .d10 => 0x0410 | .d11 => 0x0408 | .d12 => 0x0418
  | .d13 => 0x0440 | .d14 => 0x0450 | .d15 => 0x0448 | .d16 => 0x0458

/-- `COMMAND_CODE` (R98). On, Dim, AllOn and LampsOff are fixed by the source's vectors (R99); Off, Bright, AllOff
and LampsOn are from general knowledge (PRESUMED, log entry 3). -/
def commandCode : Command → Byte
  | .turnOn => 0x00 | .turnOff => 0x20 | .dim => 0x98 | .bright => 0x88
  | .allOn => 0x91 | .allOff => 0x80 | .lampsOn => 0x94 | .lampsOff => 0x84

/-- The contents the spec gives the three tables. -/
def specTables : Tables where
  house := houseCode
  device := deviceCode
  command := commandCode

/-- The spec's own numbering of the houses, A = 0 to P = 15 (R31; D1: no frame depends on it). -/
def houseNumber : House → Nat
  | .A => 0 | .B => 1 | .C => 2 | .D => 3 | .E => 4 | .F => 5 | .G => 6 | .H => 7
  | .I => 8 | .J => 9 | .K => 10 | .L => 11 | .M => 12 | .N => 13 | .O => 14 | .P => 15

/-- The spec's own numbering of the devices, device `n` = `n - 1` (R31; D1). -/
def deviceNumber (d : Device) : Nat := (deviceIndex d).toNat

/-- The spec's own numbering of the commands (R31; D1). -/
def commandNumber : Command → Nat
  | .turnOn => 0 | .turnOff => 1 | .dim => 2 | .bright => 3
  | .allOn => 4 | .allOff => 5 | .lampsOn => 6 | .lampsOff => 7

/-- The high byte `dc[15:8]` of a device code, the source's `deviceCode >> 8` (R65, R92). -/
def highByte (dc : DeviceWord) : Byte := dc.extractLsb' 8 8

/-- The low byte `dc[7:0]` of a device code, the source's `deviceCode & 0xFF` (R65, R93). -/
def lowByte (dc : DeviceWord) : Byte := dc.extractLsb' 0 8

/-- The device code an encoding uses (R94): the table entry for On and Off with a device; `DeviceRequired` for On
and Off without one; `0x0000` for a house-scoped command, whether or not a device is present (log entry 4). -/
def selectDeviceCode (T : Tables) (d : Option Device) (c : Command) : Except OpError DeviceWord :=
  if c.deviceScoped then
    match d with
    | some dev => .ok (T.device dev)
    | none => .error .deviceRequired
  else .ok 0x0000

/-! ### The line values of the signals (R104) -/

/-- `RESET`: both lines cleared. -/
def resetLine : Line := ⟨false, false⟩

/-- `STANDBY`: both lines asserted. -/
def standbyLine : Line := ⟨true, true⟩

/-- The signal of data bit `b`, `(RTS, DTR) = (b, 1 - b)` (R105): `BIT1` is (1,0), `BIT0` is (0,1). -/
def bitLine (b : Bool) : Line := ⟨b, !b⟩

/-- The line levels that a `LINE2` word stands for: RTS in bit 1, DTR in bit 0 (R36, R104). -/
def lineOfWord (v : BitVec 2) : Line := ⟨v.getLsbD 1, v.getLsbD 0⟩

/-! ### Bits in wire order -/

/-- Bit number `k` of a frame on the wire, `FR[39 - k]` (R35, R64). -/
def wireBit (F : Frame) (k : Nat) : Bool := F.getLsbD (39 - k)

/-- The forty bits of a frame in wire order, `F[39], F[38], ..., F[0]` (R64). -/
def wireBits (F : Frame) : List Bool := (List.range 40).map (wireBit F)

/-- The eight bits of a byte in wire order, most significant first (R64). -/
def byteBits (v : Byte) : List Bool := (List.range 8).map fun m => v.getLsbD (7 - m)

end Sys2Proof.Machine
end

