-- ==== Sys2Proof/Machine/Flags.lean ====
section
/-! DEFINITION. Status. There are no condition codes and no arithmetic flags (10_state.md R37); the only status is
the phase, which is derived from `SPC` and `ERR` (R33), and the cause of an error (60_exceptions.md R250). -/

namespace Sys2Proof.Machine

/-- The nine values of `PH` (R33). -/
inductive Phase where
  | idle | reset0 | standby0 | armWait | bits | disarmWait | reset1 | done | fault
  deriving DecidableEq, Repr

/-- The phase of a transmission (R33, column "`SPC` range"). -/
def txPhase (tx : Transmission) : Phase :=
  match tx.err with
  | some _ => .fault
  | none =>
    if tx.spc < 2 then .reset0
    else if tx.spc < 4 then .standby0
    else if tx.spc < 5 then .armWait
    else if tx.spc < 165 then .bits
    else if tx.spc < 166 then .disarmWait
    else if tx.spc < 168 then .reset1
    else .done

/-- `PH`, a function of `SPC` and `ERR`; `IDLE` stands for "no transmission in progress" (R33). -/
def phase (s : State) : Phase :=
  match s.tx with
  | none => .idle
  | some tx => txPhase tx

/-- The busy predicate `PH ≠ IDLE` (R38): no caller can read it; the model uses it for the exclusivity rule R309. -/
def busy (s : State) : Bool := s.tx.isSome

/-- The spec's numbering of the error causes (R250; D15: unobservable). -/
def causeCode : OpError → Nat
  | .deviceRequired => 1
  | .ioError _ => 2

end Sys2Proof.Machine
end

