-- ==== Sys2Proof/Machine/Ops.lean ====
section
/-! DEFINITION. The named operations on the state: the driver's answer, the line write, the delay, the signal
(41_line_signaler.md R170 to R173), taking an error (60_exceptions.md R258, R260), and the start and the end of a
transmission (42_frame_transmitter.md R201, R222). -/

namespace Sys2Proof.Machine

/-! ### The serial driver (R253) -/

/-- The driver's answer to the line write that comes `k` writes after the next one: the answer State lists, else
the free value (log entry 6). -/
def answerAt (s : State) (k : Nat) : IoAnswer :=
  match s.answers[k]? with
  | some a => a
  | none => Config.ioAnswer (s.asked + k)

/-- The state after the driver has answered one line write. -/
def consumeAnswer (s : State) : State :=
  { s with answers := s.answers.tail, asked := s.asked + 1 }

/-! ### The line write and the delay -/

/-- `LineWrite(r, d)` (R170): on success both lines take their new levels in one step (R69; log entry 8); on
failure the lines are left at whatever the answer says (R259) and the error goes to the operation that wrote.
Nothing is written twice: there is no retry (R171). -/
def lineWrite (l : Line) (s : State) : State × Option IoError :=
  let s' := consumeAnswer s
  match answerAt s 0 with
  | .ok => ({ s' with line := l, trace := s.trace ++ [.wrote l] }, none)
  | .fail e left => ({ s' with line := left, trace := s.trace ++ [.failed l e] }, some e)

/-- The two kinds of delay (R172, R270). -/
inductive DelayKind where
  | settle
  | command
  deriving DecidableEq, Repr

/-- The event an elapsed delay appends to the trace (R172). -/
def DelayKind.event : DelayKind → Event
  | .settle => .settled
  | .command => .commandWaited

/-- `Delay(k)` (R172): it cannot fail and touches nothing but the trace. How long it lasts, at least its minimum,
is not represented (log entry 9). -/
def delay (k : DelayKind) (s : State) : State :=
  { s with trace := s.trace ++ [k.event] }

/-! ### The signal (R173) -/

/-- `Signal(r, d)` (R173): one line write, then one settle delay, which is skipped when the write fails. -/
def signal (l : Line) (s : State) : State × Option IoError :=
  match lineWrite l s with
  | (s', none) => (delay .settle s', none)
  | (s', some e) => (s', some e)

/-- `SENDBIT b` (R180): the signal of the bit, then standby; the second is not performed when the first fails. -/
def sendBit (b : Bool) (s : State) : State × Option IoError :=
  match signal (bitLine b) s with
  | (s', none) => signal standbyLine s'
  | (s', some e) => (s', some e)

/-- One `SENDBIT` after another, up to the first that fails (R214, R220). -/
def sendBits : List Bool → State → State × Option IoError
  | [], s => (s, none)
  | b :: bs, s =>
    match sendBit b s with
    | (s', none) => sendBits bs s'
    | (s', some e) => (s', some e)

/-- `SENDBYTE v` (R214): its eight bits, most significant first. -/
def sendByte (v : Byte) (s : State) : State × Option IoError := sendBits (byteBits v) s

/-! ### Taking an error, and the end of an operation -/

/-- Taking an error: "trap entry" is the abort of the operation in progress (60_exceptions.md).
`IoError(e)` in a transmission sets ERR, leaves SPC at the failing entry and leaves the dongle unknown (R258,
R262); the caller receives it when the run ends (`finishRun`). Any other error, and an error outside a
transmission, goes to the caller at once, unchanged (R181, R260). -/
def raise (e : OpError) (s : State) : State :=
  match e, s.tx with
  | .ioError io, some tx => { s with tx := some { tx with err := some io }, dongle := .unknown }
  | e, _ => { s with result := some (.err e) }

/-- A signal, or a composite of signals, asked for by the caller on its own hands its result to the caller. -/
def finishSignal (r : State × Option IoError) : State :=
  match r with
  | (s, none) => { s with result := some .ok }
  | (s, some e) => raise (.ioError e) s

/-- The start of `TRANSMIT F` (R201): `FR <- F`, `SPC <- 0`, `ERR <- None`, an empty trace; LINE keeps its value. -/
def startRun (F : Frame) (s : State) : State :=
  { s with tx := some { fr := F, spc := 0, err := none }, trace := [], result := none }

/-- The result of a run that has ended: success, or the first error (R205, R220, R261). -/
def runResult (tx : Transmission) : Result :=
  match tx.err with
  | none => .ok
  | some e => .err (.ioError e)

/-- The end of a run (R222), the return beside `raise`: the result goes to the caller, FR, SPC and ERR are
discarded and `PH` becomes `IDLE`. Nothing is restored, since nothing was saved (R263). -/
def finishRun (tx : Transmission) (s : State) : State :=
  { s with tx := none, result := some (runResult tx) }

/-- `SPC <- SPC + 1` after an entry that succeeded (R202, R219); at 168 the run is done and the hidden `DONGLE`
becomes `IDLE` (R205, R42). -/
def advance (tx : Transmission) (s : State) : State :=
  { s with tx := some { tx with spc := tx.spc + 1 }
           dongle := if tx.spc + 1 = 168 then .idle else s.dongle }

/-- The caller's next operation is taken: it leaves the list of operations to come, and its trace and result start
empty (log entry 16). -/
def beginOp (rest : List CallerOp) (s : State) : State :=
  { s with ops := rest, trace := [], result := none }

/-- An operation that writes the lines is refused while a transmission is in progress (R309, U7, D17). -/
def whenIdle (s : State) (next : State) : Host.Outcome State Fault Refusal :=
  if busy s then .refused .handleBusy else .next next

end Sys2Proof.Machine
end

