-- ==== Sys2Proof/Machine/Encoder.lean ====
section
/-! DEFINITION. Family CMD: the frame encoder and its eight commands (40_frame_encoder.md). -/

namespace Sys2Proof.Machine

/-- `houseByte = HOUSE_CODE[house] | deviceCode[15:8]` (R92). -/
def houseByte (T : Tables) (h : House) (dc : DeviceWord) : Byte := T.house h ||| highByte dc

/-- `deviceCommandByte = deviceCode[7:0] | COMMAND_CODE[command]` (R93). -/
def deviceCommandByte (T : Tables) (c : Command) (dc : DeviceWord) : Byte := lowByte dc ||| T.command c

/-- The encoder's algorithm over any tables (R131): `[0xD5, 0xAA, houseByte, deviceCommandByte, 0xAD]`, or
`DeviceRequired`. -/
def encodeWith (T : Tables) (h : House) (d : Option Device) (c : Command) : Except OpError Frame :=
  match selectDeviceCode T d c with
  | .error e => .error e
  | .ok dc => .ok (frameOfBytes 0xD5 0xAA (houseByte T h dc) (deviceCommandByte T c dc) 0xAD)

/-- `encode(house, device, command)` with the spec's tables (R130, R131). -/
def encodeCommand (h : House) (d : Option Device) (c : Command) : Except OpError Frame :=
  encodeWith specTables h d c

/-- A command of family CMD over any tables: the encoder's frame goes to the caller, or its error is taken (R130,
R260). The encoder is pure: no register of the machine changes (R132). -/
def returnEncodingWith (T : Tables) (h : House) (d : Option Device) (c : Command) (s : State) : State :=
  match encodeWith T h d c with
  | .ok F => { s with result := some (.frame F) }
  | .error e => raise e s

/-- A command of family CMD with the spec's tables. -/
def returnEncoding (h : House) (d : Option Device) (c : Command) (s : State) : State :=
  returnEncodingWith specTables h d c s

/-- `ON` (R134). -/
def execTurnOn (h : House) (d : Option Device) (s : State) : Host.Outcome State Fault Refusal :=
  .next (returnEncoding h d .turnOn s)

/-- `OFF` (R135). -/
def execTurnOff (h : House) (d : Option Device) (s : State) : Host.Outcome State Fault Refusal :=
  .next (returnEncoding h d .turnOff s)

/-- `DIM` (R136). -/
def execDim (h : House) (d : Option Device) (s : State) : Host.Outcome State Fault Refusal :=
  .next (returnEncoding h d .dim s)

/-- `BRIGHT` (R137). -/
def execBright (h : House) (d : Option Device) (s : State) : Host.Outcome State Fault Refusal :=
  .next (returnEncoding h d .bright s)

/-- `ALL_ON` (R138). -/
def execAllOn (h : House) (d : Option Device) (s : State) : Host.Outcome State Fault Refusal :=
  .next (returnEncoding h d .allOn s)

/-- `ALL_OFF` (R139). -/
def execAllOff (h : House) (d : Option Device) (s : State) : Host.Outcome State Fault Refusal :=
  .next (returnEncoding h d .allOff s)

/-- `LAMPS_ON` (R140). -/
def execLampsOn (h : House) (d : Option Device) (s : State) : Host.Outcome State Fault Refusal :=
  .next (returnEncoding h d .lampsOn s)

/-- `LAMPS_OFF` (R141). -/
def execLampsOff (h : House) (d : Option Device) (s : State) : Host.Outcome State Fault Refusal :=
  .next (returnEncoding h d .lampsOff s)

end Sys2Proof.Machine
end

