-- ==== Sys2Proof/Machine/Signals.lean ====
section
/-! DEFINITION. Family SIG: the four line signals (41_line_signaler.md R174 to R177), and the caller's `SENDBIT`
and `SENDBYTE` (R180, R214). Each is one blocking call, so one step (log entry 14). -/

namespace Sys2Proof.Machine

/-- A line signal asked for by the caller (R173): refused while a transmission is in progress (R309). -/
def callSignal (l : Line) (s : State) : Host.Outcome State Fault Refusal :=
  whenIdle s (finishSignal (signal l s))

/-- `RESET` (R174): `Signal(0, 0)`, an active clear of both lines whatever LINE held, never a no-op. -/
def execReset (s : State) : Host.Outcome State Fault Refusal := callSignal resetLine s

/-- `STANDBY` (R175): `Signal(1, 1)`. -/
def execStandby (s : State) : Host.Outcome State Fault Refusal := callSignal standbyLine s

/-- `BIT1` (R176): `Signal(1, 0)`. -/
def execBit1 (s : State) : Host.Outcome State Fault Refusal := callSignal (bitLine true) s

/-- `BIT0` (R177): `Signal(0, 1)`. -/
def execBit0 (s : State) : Host.Outcome State Fault Refusal := callSignal (bitLine false) s

/-- `SENDBIT b` asked for by the caller (R180). -/
def callSendBit (b : Bool) (s : State) : Host.Outcome State Fault Refusal :=
  whenIdle s (finishSignal (sendBit b s))

/-- `SENDBYTE v` asked for by the caller (R214). -/
def callSendByte (v : Byte) (s : State) : Host.Outcome State Fault Refusal :=
  whenIdle s (finishSignal (sendByte v s))

end Sys2Proof.Machine
end

