-- ==== Sys2Proof/Machine/Dispatch.lean ====
section
/-! DEFINITION. The dispatch of every instruction to its meaning. -/

namespace Sys2Proof.Machine

/-- The meaning of every instruction of spec/opcode_table.json. -/
def exec (i : Instr) (s : State) : Host.Outcome State Fault Refusal :=
  match i with
  | .turnOn h d => Sys2Proof.Machine.execTurnOn h d s
  | .turnOff h d => Sys2Proof.Machine.execTurnOff h d s
  | .dim h d => Sys2Proof.Machine.execDim h d s
  | .bright h d => Sys2Proof.Machine.execBright h d s
  | .allOn h d => Sys2Proof.Machine.execAllOn h d s
  | .allOff h d => Sys2Proof.Machine.execAllOff h d s
  | .lampsOn h d => Sys2Proof.Machine.execLampsOn h d s
  | .lampsOff h d => Sys2Proof.Machine.execLampsOff h d s
  | .reset => Sys2Proof.Machine.execReset s
  | .bit0 => Sys2Proof.Machine.execBit0 s
  | .bit1 => Sys2Proof.Machine.execBit1 s
  | .standby => Sys2Proof.Machine.execStandby s

end Sys2Proof.Machine
end

