-- ==== Sys2Proof/Machine/Sequencer.lean ====
section
/-! DEFINITION. The frame sequencer: the fixed schedule of 168 entries, its step, and `TRANSMIT` and `SEND`
(42_frame_transmitter.md R200 to R226). -/

namespace Sys2Proof.Machine

/-- One entry of the schedule (R202, R203). -/
inductive Entry where
  | write (l : Line)
  | wait (k : DelayKind)
  deriving DecidableEq, Repr

/-- The event an entry appends when it succeeds (R203). -/
def Entry.event : Entry → Event
  | .write l => .wrote l
  | .wait k => k.event

/-- The entry at sub-step `j` of bit number `k`: the bit's signal, its settle, standby, its settle (R35, R180). -/
def bitEntry (F : Frame) (k j : Nat) : Entry :=
  match j with
  | 0 => .write (bitLine (wireBit F k))
  | 2 => .write standbyLine
  | _ => .wait .settle

/-- The schedule `entry(i, F)`, for `i` from 0 to 167 (R203); there is no other entry. -/
def entry (i : Nat) (F : Frame) : Option Entry :=
  if i = 0 then some (.write resetLine)
  else if i = 1 then some (.wait .settle)
  else if i = 2 then some (.write standbyLine)
  else if i = 3 then some (.wait .settle)
  else if i = 4 then some (.wait .command)
  else if i < 165 then some (bitEntry F ((i - 5) / 4) ((i - 5) % 4))
  else if i = 165 then some (.wait .command)
  else if i = 166 then some (.write resetLine)
  else if i = 167 then some (.wait .settle)
  else none

/-- Executing one entry (R202): on success SPC advances; on a failed line write the error is taken and SPC stays
(R258). -/
def runEntry (en : Entry) (tx : Transmission) (s : State) : State :=
  match en with
  | .wait k => advance tx (delay k s)
  | .write l =>
    match lineWrite l s with
    | (s', none) => advance tx s'
    | (s', some e) => raise (.ioError e) s'

/-- A step while a transmission is in progress: one entry of the schedule (R202), or, when the run has ended
(R205, R220), its return to the caller (R222; a step of its own, log entry 21). -/
def stepTransmission (tx : Transmission) (s : State) : Host.Outcome State Fault Refusal :=
  match tx.err with
  | some _ => .next (finishRun tx s)
  | none =>
    match entry tx.spc tx.fr with
    | some en => .next (runEntry en tx s)
    | none => if tx.spc = 168 then .next (finishRun tx s) else .fault .spcOutOfRange

/-- `TRANSMIT F` (R201): it may start only when `PH = IDLE` (R309); any 40-bit value is sent (R112). -/
def callTransmit (F : Frame) (s : State) : Host.Outcome State Fault Refusal := whenIdle s (startRun F s)

/-- `SEND h d c` over any tables (R226): encode, then transmit; when the encoder raises, the transmission does not
start. -/
def callSendWith (T : Tables) (h : House) (d : Option Device) (c : Command) (s : State) :
    Host.Outcome State Fault Refusal :=
  match encodeWith T h d c with
  | .ok F => callTransmit F s
  | .error e => .next (raise e s)

/-- `SEND h d c` with the spec's tables. -/
def callSend (h : House) (d : Option Device) (c : Command) (s : State) : Host.Outcome State Fault Refusal :=
  callSendWith specTables h d c s

end Sys2Proof.Machine
end

