-- ==== Sys2Proof/Machine/Caller.lean ====
section
/-! DEFINITION. Taking the caller's next operation (70_reset_and_hazards.md R303): the machine's instruction fetch. -/

namespace Sys2Proof.Machine

/-- Performing one operation of the caller (30_encoding.md R116). A word is decoded, and refused by name where it
encodes no instruction (R111, U6). -/
def performOp (op : CallerOp) (s : State) : Host.Outcome State Fault Refusal :=
  match op with
  | .word bytes =>
    match decode bytes with
    | .ok i => exec i s
    | .error why => .refused (.notAnOperation why)
  | .call i => exec i s
  | .sendBit b => callSendBit b s
  | .sendByte v => callSendByte v s
  | .transmit F => callTransmit F s
  | .send h d c => callSend h d c s

/-- A step with no transmission in progress: the caller's next operation is taken and performed. With none to
come, the block holds its lines and does nothing (R292). -/
def stepIdle (s : State) : Host.Outcome State Fault Refusal :=
  match s.ops with
  | [] => .next s
  | op :: rest => performOp op (beginOp rest s)

/-- `s` with the given word as the next operation of the caller and no transmission in progress. -/
def loadWord (bytes : List Byte) (s : State) : State :=
  { s with tx := none, ops := .word bytes :: s.ops }

end Sys2Proof.Machine
end

