-- ==== Sys2Proof/Machine/Step.lean ====
section
/-! DEFINITION. One step of the machine: one entry of the schedule, or one operation of the caller. -/

namespace Sys2Proof.Machine

/-- One step: the sequencer's while a transmission is in progress (R202), else the caller's next operation. -/
def step (s : State) : Host.Outcome State Fault Refusal :=
  match s.tx with
  | some tx => stepTransmission tx s
  | none => stepIdle s

/-- `s` with the instruction that spec/opcode_table.json numbers `w` placed where `step` takes its next
instruction: as the caller's next operation, with no transmission in progress (log entry 12). -/
def State.withFetchWord (s : State) (nbits w : Nat) : State := loadWord (tableWordBytes nbits w) s

end Sys2Proof.Machine
end

