-- ==== Sys2Proof/Machine/OpenTables.lean ====
section
/-! DEFINITION. The machine over open code tables. 00_scope.md R8 (with D2, D3, D4) gives the tables values and
leaves them open as configuration at once: `exec` and `step` are the machine at the spec's values `specTables`;
`execWith T` and `stepWith T` are the same machine at any tables `T`. Which tables are legal is `TablesLegal`. -/

namespace Sys2Proof.Machine

/-! ### Decoding (R102 over any tables; log entry 31) -/

/-- The sixteen houses, in the order of R96. -/
def allHouses : List House := [.A, .B, .C, .D, .E, .F, .G, .H, .I, .J, .K, .L, .M, .N, .O, .P]

/-- The sixteen devices, in the order of R97. -/
def allDevices : List Device :=
  [.d1, .d2, .d3, .d4, .d5, .d6, .d7, .d8, .d9, .d10, .d11, .d12, .d13, .d14, .d15, .d16]

/-- The eight commands, in the order of R98. -/
def allCommands : List Command := [.turnOn, .turnOff, .dim, .bright, .allOn, .allOff, .lampsOn, .lampsOff]

/-- The operands of one encoding. -/
structure Inputs where
  house : House
  device : Option Device
  command : Command
  deriving DecidableEq, Repr

/-- The devices a normalised input of the command has: each of the sixteen, or none (R110). -/
def normalDevices (c : Command) : List (Option Device) := if c.deviceScoped then allDevices.map some else [none]

/-- The 608 normalised inputs of the encoder (R110). -/
def normalInputs : List Inputs :=
  allCommands.flatMap fun c => (normalDevices c).flatMap fun d => allHouses.map fun h => ⟨h, d, c⟩

/-- Whether the encoder over `T` gives the frame `F` for these inputs. -/
def Inputs.givesFrame (x : Inputs) (T : Tables) (F : Frame) : Bool :=
  match encodeWith T x.house x.device x.command with
  | .ok G => G == F
  | .error _ => false

/-- Decoding a frame over any tables: the normalised inputs that encode to it (the law of R102), or the reason why
there are none. -/
def decodeFrameWith (T : Tables) (F : Frame) : Except DecodeError Instr :=
  match normalInputs.find? (·.givesFrame T F) with
  | some x => .ok (Instr.ofCommand x.house x.device x.command)
  | none => .error (frameRefusal F)

/-- Decoding the bytes of a word over any tables; the line words do not depend on the tables (R104). -/
def decodeWith (T : Tables) : List Byte → Except DecodeError Instr
  | [b0, b1, b2, b3, b4] => decodeFrameWith T (frameOfBytes b0 b1 b2 b3 b4)
  | bytes => decode bytes

/-! ### The instructions, the caller's operations and the step -/

/-- The meaning of every instruction over any tables: only family CMD reads a table (R60). -/
def execWith (T : Tables) (i : Instr) (s : State) : Host.Outcome State Fault Refusal :=
  match i with
  | .turnOn h d => .next (returnEncodingWith T h d .turnOn s)
  | .turnOff h d => .next (returnEncodingWith T h d .turnOff s)
  | .dim h d => .next (returnEncodingWith T h d .dim s)
  | .bright h d => .next (returnEncodingWith T h d .bright s)
  | .allOn h d => .next (returnEncodingWith T h d .allOn s)
  | .allOff h d => .next (returnEncodingWith T h d .allOff s)
  | .lampsOn h d => .next (returnEncodingWith T h d .lampsOn s)
  | .lampsOff h d => .next (returnEncodingWith T h d .lampsOff s)
  | .reset => exec .reset s
  | .bit0 => exec .bit0 s
  | .bit1 => exec .bit1 s
  | .standby => exec .standby s

/-- Performing one operation of the caller over any tables (R116). -/
def performOpWith (T : Tables) (op : CallerOp) (s : State) : Host.Outcome State Fault Refusal :=
  match op with
  | .word bytes =>
    match decodeWith T bytes with
    | .ok i => execWith T i s
    | .error why => .refused (.notAnOperation why)
  | .call i => execWith T i s
  | .sendBit b => performOp (.sendBit b) s
  | .sendByte v => performOp (.sendByte v) s
  | .transmit F => performOp (.transmit F) s
  | .send h d c => callSendWith T h d c s

/-- One step over any tables. A transmission in progress reads no table (R61), so there it is the step itself. -/
def stepWith (T : Tables) (s : State) : Host.Outcome State Fault Refusal :=
  match s.tx, s.ops with
  | some _, _ => step s
  | none, [] => step s
  | none, op :: rest => performOpWith T op (beginOp rest s)

end Sys2Proof.Machine
end

