-- ==== Sys2Proof/Machine/Reading.lean ====
section
/-! DEFINITION. Traces: the trace the schedule produces (42_frame_transmitter.md R203, R218), the dongle's side of
a trace (R224), durations (R221) and what a non-atomic write would show (70_reset_and_hazards.md R312). -/

namespace Sys2Proof.Machine

/-! ### The trace of the schedule -/

/-- The events of the entries below `i`, in order, when none fails (R203). -/
def scheduleTrace (F : Frame) (i : Nat) : List Event :=
  (List.range i).filterMap fun j => (entry j F).map Entry.event

/-- The four events of one `SENDBIT` (R180). -/
def bitEvents (b : Bool) : List Event := [.wrote (bitLine b), .settled, .wrote standbyLine, .settled]

/-- The closed form of the trace of a successful transmission (R218). -/
def closedTrace (F : Frame) : List Event :=
  [.wrote resetLine, .settled, .wrote standbyLine, .settled, .commandWaited] ++
    (wireBits F).flatMap bitEvents ++ [.commandWaited, .wrote resetLine, .settled]

/-- The value the last write entry below `i` puts on the lines, if there is one (R70). -/
def lastWrite (F : Frame) : Nat → Option Line
  | 0 => none
  | i + 1 =>
    match entry i F with
    | some (.write l) => some l
    | _ => lastWrite F i

/-- Whether an entry is a line write. -/
def Entry.isWrite : Entry → Bool
  | .write _ => true
  | .wait _ => false

/-- `w(i)`, the number of write entries below `i` (R316). -/
def writesBelow (F : Frame) (i : Nat) : Nat :=
  (((List.range i).filterMap fun j => entry j F).filter Entry.isWrite).length

/-! ### The dongle's reading (R224), the spec's abstraction (log entry 26) -/

/-- `vals(t)`: the line values of the `W` events of a trace, in order. -/
def writtenLines (t : List Event) : List Line :=
  t.filterMap fun ev =>
    match ev with
    | .wrote l => some l
    | .failed _ _ | .settled | .commandWaited => none

/-- The bit that a line value signals: (1,0) is 1, (0,1) is 0; the other two signal none. -/
def lineBit (l : Line) : Option Bool :=
  if l = bitLine true then some true else if l = bitLine false then some false else none

/-- The bits after the arm sequence: each a bit value followed by standby; then, if present, the final reset,
whose presence is the second component. -/
def rxTail : List Line → Option (List Bool × Bool)
  | [] => some ([], false)
  | [l] => if l = resetLine then some ([], true) else none
  | x :: y :: rest =>
    match lineBit x with
    | none => none
    | some b =>
      if y = standbyLine then
        match rxTail rest with
        | some (bs, fin) => some (b :: bs, fin)
        | none => none
      else none

/-- The reading of a trace: `(0,0), (1,1)`, then the bits; not defined on any other form. -/
def rxRead (t : List Event) : Option (List Bool × Bool) :=
  match writtenLines t with
  | r :: st :: rest => if r = resetLine ∧ st = standbyLine then rxTail rest else none
  | _ => none

/-- `rx_bits(t)`. -/
def rxBits (t : List Event) : Option (List Bool) := (rxRead t).map Prod.fst

/-- The 40-bit value with `F[39 - k] = bk`. -/
def frameOfBits (bs : List Bool) : Frame := bs.foldl BitVec.shiftConcat 0

/-- The frame received: complete when there are forty bits and the final reset. -/
def rxFrame (t : List Event) : Option Frame :=
  match rxRead t with
  | some (bs, true) => if bs.length = 40 then some (frameOfBits bs) else none
  | _ => none

/-! ### Durations (R221, R315): lower bounds -/

/-- The least duration of one event: a delay lasts at least its parameter, a line write takes no stated time. -/
def eventDuration (t : Timing) : Event → Nat
  | .settled => t.settle
  | .commandWaited => t.command
  | .wrote _ | .failed _ _ => 0

/-- The least duration of a trace. -/
def leastDuration (t : Timing) (tr : List Event) : Nat := (tr.map (eventDuration t)).sum

/-! ### Non-atomic writes (R312) -/

/-- The line values a write shows if the two lines cannot change in one step: where both change, one of them
changes first. With `LINE_WRITE_ATOMIC = true`, which the spec and the model take (R69, log entry 8), a write
shows `[new]`. -/
def splitWrite (rtsFirst : Bool) (old new : Line) : List Line :=
  if old.rts ≠ new.rts ∧ old.dtr ≠ new.dtr then
    if rtsFirst then [⟨new.rts, old.dtr⟩, new] else [⟨old.rts, new.dtr⟩, new]
  else [new]

end Sys2Proof.Machine
end

