-- ==== Sys2Proof/Safety.lean ====
section
/-! DEFINITION. What counts as a sound state and a sound table, in the terms the statements use. -/

namespace Sys2Proof.Machine

/-- The named premise "no line write fails", for the next `n` line writes (60_exceptions.md R253). -/
abbrev NoWriteFails (n : Nat) (s : State) : Prop := ∀ k, k < n → answerAt s k = .ok

/-- What holds while a transmission is in progress: SPC is in range (R34); the operation has not returned; while
no write has failed, the trace is that of the entries below SPC, LINE holds the last value written, and at 168
the dongle is idle (R70, R74, R205); after a failed write SPC names the write entry that failed, the trace ends
with its `X` event and the dongle is unknown (R258, R262). -/
structure RunInv (tx : Transmission) (s : State) : Prop where
  inRange : tx.spc ≤ 168
  notReturned : s.result = none
  goingTrace : tx.err = none → s.trace = scheduleTrace tx.fr tx.spc
  goingLine : tx.err = none → ∀ l, lastWrite tx.fr tx.spc = some l → s.line = l
  doneDongle : tx.err = none → tx.spc = 168 → s.dongle = .idle
  aborted : ∀ e, tx.err = some e →
    s.dongle = .unknown ∧
      ∃ l, entry tx.spc tx.fr = some (.write l) ∧ s.trace = scheduleTrace tx.fr tx.spc ++ [.failed l e]

/-- The invariant of the machine. -/
def Inv (s : State) : Prop := ∀ tx, s.tx = some tx → RunInv tx s

/-- The conditions 30_encoding.md R95 puts on any code tables, (a) to (f). -/
structure TablesWf (T : Tables) : Prop where
  /-- (a) -/
  houseLow : ∀ h, (T.house h).extractLsb' 0 4 = 0
  /-- (b) -/
  houseDistinct : ∀ h h', T.house h = T.house h' → h = h'
  /-- (c) -/
  deviceHigh : ∀ d, (T.device d).extractLsb' 12 4 = 0
  /-- (d) -/
  deviceDistinct : ∀ d d', T.device d = T.device d' → d = d'
  /-- (e), first half -/
  deviceDisjoint : ∀ d, lowByte (T.device d) &&& T.command .turnOn = 0 ∧ lowByte (T.device d) &&& T.command .turnOff = 0
  /-- (e), second half: ORing a device's low byte into On cannot produce Off, nor into Off On, nor into either a
  house-scoped code -/
  deviceApart : ∀ d, lowByte (T.device d) ||| T.command .turnOn ≠ T.command .turnOff ∧
    lowByte (T.device d) ||| T.command .turnOff ≠ T.command .turnOn ∧
    ∀ c, c.deviceScoped = false →
      lowByte (T.device d) ||| T.command .turnOn ≠ T.command c ∧
        lowByte (T.device d) ||| T.command .turnOff ≠ T.command c
  /-- (f) -/
  commandDistinct : ∀ c c', T.command c = T.command c' → c = c'

/-- The ten table entries that the source's vectors fix (R99, R8). -/
structure TablesPinned (T : Tables) : Prop where
  houseD : T.house .D = 0x50
  houseF : T.house .F = 0x90
  houseJ : T.house .J = 0xF0
  houseO : T.house .O = 0x20
  device1 : T.device .d1 = 0x0000
  device9 : T.device .d9 = 0x0400
  commandOn : T.command .turnOn = 0x00
  commandDim : T.command .dim = 0x98
  commandAllOn : T.command .allOn = 0x91
  commandLampsOff : T.command .lampsOff = 0x84

/-- The tables that R8 admits as configuration (D2, D3, D4): the conditions of R95 and the entries the source
fixes. -/
structure TablesLegal (T : Tables) : Prop where
  wellFormed : TablesWf T
  pinned : TablesPinned T

/-- The normalised inputs of the encoder (R110): a device exactly for the device-scoped commands. -/
abbrev Normalised (d : Option Device) (c : Command) : Prop := d.isSome = c.deviceScoped

/-- The device as an encoding carries it: kept for On and Off, dropped for the house-scoped commands (R102). -/
def normalDevice (d : Option Device) (c : Command) : Option Device := if c.deviceScoped then d else none

/-! ### Shorthands of the statements -/

/-- `n` steps of the machine, up to the first that stops. -/
def steps : Nat → State → Host.Outcome State Fault Refusal
  | 0, s => .next s
  | n + 1, s =>
    match step s with
    | .next s' => steps n s'
    | .fault r => .fault r
    | .refused r => .refused r

/-- The frame `D5 AA B2 B3 AD` (R90). -/
def middleFrame (b2 b3 : Byte) : Frame := frameOfBytes 0xD5 0xAA b2 b3 0xAD

/-- `s`, with `r` handed to the caller and everything else as it was. -/
def returned (r : Result) (s : State) : State := { s with result := some r }

/-- The line values that `SENDBIT` of each of these bits writes, in order: the bit's signal, then standby (R180). -/
def linesOfBits (bs : List Bool) : List Line := bs.flatMap fun b => [⟨b, !b⟩, ⟨true, true⟩]

/-- The events of line writes that succeed, each with its settle (R173). -/
def settledWrites (ls : List Line) : List Event := ls.flatMap fun l => [.wrote l, .settled]

/-- `s` after a signal of value `l` that succeeded: LINE, the trace, the result and the driver's answers have
changed, nothing else. -/
def afterSignal (l : Line) (s : State) : State :=
  { s with line := l, trace := s.trace ++ [.wrote l, .settled], result := some .ok,
           answers := s.answers.tail, asked := s.asked + 1 }

/-- `s` after a signal of value `l` whose line write failed with `e` and left the lines at `left`: no settle. -/
def afterFailedSignal (l : Line) (e : IoError) (left : Line) (s : State) : State :=
  { s with line := left, trace := s.trace ++ [.failed l e], result := some (.err (.ioError e)),
           answers := s.answers.tail, asked := s.asked + 1 }

end Sys2Proof.Machine
end

