-- ==== Sys2Proof/Certificates/Slice0/Obligations.lean ====
section
/-! DEFINITION. The statements for the provers: what the numbered rules of spec/ say the machine does. -/

open Sys2Proof Sys2Proof.Machine

/-! ### Encoding -/

/-- Decoding the word of an instruction gives the instruction back, for every instruction that has a word (R102
for the frames, R104 for the line words); an instruction has a word exactly when it is well-formed: a device for
On and Off, none for the six house-scoped commands (R110, R133, R94). Choices it rests on: log entries 1 to 3
and 13. -/
def Obligations.DecodeAfterEncode : Prop :=
  (∀ (i : Instr) (bs : List Byte), encode i = some bs → decode bs = .ok i) ∧
  (∀ i : Instr, i.wellFormed = (encode i).isSome)

/-- Bytes that decode to an instruction are its word: each word has one meaning (R102, R104). Choices it rests
on: log entries 1 to 3 and 13. -/
def Obligations.EncodeAfterDecode : Prop :=
  ∀ (bs : List Byte) (i : Instr), decode bs = .ok i → encode i = some bs

/-- Words written out from the layouts of R100 and R104 decode to the instructions they stand for. Choices it
rests on: log entries 1 to 3 and 13. -/
def Obligations.SampleWordsDecode : Prop :=
  decode [0b11010101, 0b10101010, 0b10010100, 0b00000000, 0b10101101] = .ok (.turnOn .F (some .d9)) ∧
  decode [0b11010101, 0b10101010, 0b00110100, 0b01111000, 0b10101101] = .ok (.turnOff .P (some .d16)) ∧
  decode [0b11010101, 0b10101010, 0b01010000, 0b10011000, 0b10101101] = .ok (.dim .D none) ∧
  decode [0b11010101, 0b10101010, 0b00100000, 0b10010001, 0b10101101] = .ok (.allOn .O none) ∧
  decode [0b00000010] = .ok .bit1 ∧ decode [0b00000001] = .ok .bit0

/-- No frame matches two rows of the opcode map (R101). Choices it rests on: log entries 2 and 3. -/
def Obligations.OpcodeRowsDisjoint : Prop :=
  ∀ (F : Frame) (r r' : OpRow), r ∈ opcodeMap → r' ∈ opcodeMap →
    r.matchesFrame F = true → r'.matchesFrame F = true → r = r'

/-- Which frames decode (R111): right header and footer, bits 3, 1 and 0 of B2 clear, and either bit 7 of B3
clear with bits 2, 1, 0 clear, or bit 2 of B2 clear with B3 one of the six house-scoped codes. Every other frame
is refused. Choices it rests on: log entries 2 and 3. -/
def Obligations.UnreachableFramesRefused : Prop :=
  ∀ F : Frame, (∃ i, decodeFrame F = .ok i) ↔
    (frameByte F 0 = 0xD5 ∧ frameByte F 1 = 0xAA ∧ frameByte F 4 = 0xAD ∧
      (frameByte F 2).getLsbD 3 = false ∧ (frameByte F 2).getLsbD 1 = false ∧ (frameByte F 2).getLsbD 0 = false ∧
      (((frameByte F 3).getLsbD 7 = false ∧ (frameByte F 3).getLsbD 2 = false ∧
          (frameByte F 3).getLsbD 1 = false ∧ (frameByte F 3).getLsbD 0 = false) ∨
        ((frameByte F 2).getLsbD 2 = false ∧
          frameByte F 3 ∈ ([0x98, 0x88, 0x91, 0x80, 0x94, 0x84] : List Byte))))

/-- The frames the encoder can produce are exactly those that match a row of the opcode map (R146, R101).
Choices it rests on: log entries 1 to 4. -/
def Obligations.EncoderImageIsOpcodeMap : Prop :=
  ∀ F : Frame, (∃ h d c, encodeCommand h d c = .ok F) ↔ (∃ r ∈ opcodeMap, r.matchesFrame F = true)

/-- On normalised inputs the encoder's algorithm (R131, three tables and two ORs) gives the word written from
the bit layout (R100); and the machine over open tables, at the spec's tables, is the machine: its decoder, its
instructions, its step (R8). Choices it rests on: log entries 1 to 4 and 31. -/
def Obligations.AlgorithmAgreesWithLayout : Prop :=
  (∀ (h : House) (d : Option Device) (c : Command), Normalised d c →
    ∃ F, encodeCommand h d c = .ok F ∧ encode (Instr.ofCommand h d c) = some (frameBytes F)) ∧
  (∀ bs : List Byte, decodeWith specTables bs = decode bs) ∧
  (∀ (i : Instr) (s : State), execWith specTables i s = exec i s) ∧
  (∀ s : State, stepWith specTables s = step s)

/-! ### The encoder -/

/-- Frame shape, whatever the tables hold (R143, R91). -/
def Obligations.FrameShape : Prop :=
  ∀ (T : Tables) (h : House) (d : Option Device) (c : Command) (F : Frame), encodeWith T h d c = .ok F →
    (frameBytes F).length = 5 ∧ frameByte F 0 = 0xD5 ∧ frameByte F 1 = 0xAA ∧ frameByte F 4 = 0xAD

/-- The middle bytes are the two ORs of R92 and R93, whatever the tables hold; and a `HOUSE_CODE` entry is the
house's 4-bit code in the high nibble over a zero low nibble (R92). -/
def Obligations.MiddleBytesAreOrs : Prop :=
  (∀ (T : Tables) (h : House) (d : Option Device) (c : Command) (dc : DeviceWord) (F : Frame),
    selectDeviceCode T d c = .ok dc → encodeWith T h d c = .ok F →
      frameByte F 2 = T.house h ||| dc.extractLsb' 8 8 ∧ frameByte F 3 = dc.extractLsb' 0 8 ||| T.command c) ∧
  (∀ h : House, (houseCode h).extractLsb' 4 4 = houseNibble h ∧ (houseCode h).extractLsb' 0 4 = 0)

/-- The only error of the encoder is `DeviceRequired`, raised exactly by On and Off without a device (R133); a
command without its device has no frame. -/
def Obligations.DeviceRequiredExactly : Prop :=
  ∀ (T : Tables) (h : House) (d : Option Device) (c : Command),
    (∀ e, encodeWith T h d c = .error e ↔ (e = .deviceRequired ∧ (c = .turnOn ∨ c = .turnOff) ∧ d = none)) ∧
    ((∃ F, encodeWith T h d c = .ok F) ↔ ¬ ((c = .turnOn ∨ c = .turnOff) ∧ d = none))

/-- House and device independence (R142): for a house-scoped command no bit of either middle byte depends on the
device. Choices it rests on: log entry 4. -/
def Obligations.HouseScopedIgnoresDevice : Prop :=
  ∀ (h : House) (d : Option Device) (c : Command), c.deviceScoped = false →
    encodeCommand h d c = encodeCommand h none c ∧
      ∃ F, encodeCommand h d c = .ok F ∧ frameByte F 2 = houseCode h ∧ frameByte F 3 = commandCode c

/-- The ten table values fixed by the source's vectors, and the five vectors themselves (R99). -/
def Obligations.SourceVectorsReproduced : Prop :=
  (houseCode .F = 0x90 ∧ houseCode .J = 0xF0 ∧ houseCode .O = 0x20 ∧ houseCode .D = 0x50 ∧
    deviceCode .d9 = 0x0400 ∧ deviceCode .d1 = 0x0000 ∧
    commandCode .turnOn = 0x00 ∧ commandCode .allOn = 0x91 ∧ commandCode .lampsOff = 0x84 ∧
    commandCode .dim = 0x98) ∧
  encodeCommand .F (some .d9) .turnOn = .ok 0xD5AA9400AD ∧
  encodeCommand .J (some .d1) .turnOn = .ok 0xD5AAF000AD ∧
  encodeCommand .O none .allOn = .ok 0xD5AA2091AD ∧
  encodeCommand .O none .lampsOff = .ok 0xD5AA2084AD ∧
  encodeCommand .D none .dim = .ok 0xD5AA5098AD

/-- The spec's tables are legal configuration (R8: the conditions of R95 and the entries the source fixes), and
the device table is the bit formula of R97 on the index `i = device - 1`; over any legal tables the encoder
reproduces the source's five frames (R99). The entries not fixed by the source are from general knowledge.
Choices it rests on: log entries 1 to 3. -/
def Obligations.SpecTablesWellFormed : Prop :=
  TablesLegal specTables ∧
  (∀ d : Device,
    let i : DeviceWord := BitVec.ofNat 16 (deviceNumber d)
    deviceCode d = (((i >>> 3) &&& 1) <<< 10) ||| (((i >>> 2) &&& 1) <<< 6) ||| ((i &&& 1) <<< 4) |||
      (((i >>> 1) &&& 1) <<< 3)) ∧
  (∀ T : Tables, TablesLegal T →
    encodeWith T .F (some .d9) .turnOn = .ok 0xD5AA9400AD ∧ encodeWith T .J (some .d1) .turnOn = .ok 0xD5AAF000AD ∧
    encodeWith T .O none .allOn = .ok 0xD5AA2091AD ∧ encodeWith T .O none .lampsOff = .ok 0xD5AA2084AD ∧
    encodeWith T .D none .dim = .ok 0xD5AA5098AD)

/-- Under the conditions of R95, on any tables, the encoder loses nothing: normalised inputs with the same frame
are the same, each OR of R92 and R93 is an addition without carry (R95, R144, R146), and decoding over these
tables gives exactly the normalised inputs of the frame (R102). Choices it rests on: log entries 4 and 31. -/
def Obligations.EncoderInjectiveOnAnyTables : Prop :=
  ∀ (T : Tables), TablesWf T →
    (∀ (h h' : House) (d d' : Option Device) (c c' : Command) (F : Frame), Normalised d c → Normalised d' c' →
      encodeWith T h d c = .ok F → encodeWith T h' d' c' = .ok F → h = h' ∧ d = d' ∧ c = c') ∧
    (∀ (h : House) (d : Option Device) (c : Command) (dc : DeviceWord), selectDeviceCode T d c = .ok dc →
      (houseByte T h dc).toNat = (T.house h).toNat + (highByte dc).toNat ∧
        (deviceCommandByte T c dc).toNat = (lowByte dc).toNat + (T.command c).toNat) ∧
    (∀ (F : Frame) (i : Instr), decodeFrameWith T F = .ok i ↔
      ∃ h d c, Normalised d c ∧ i = Instr.ofCommand h d c ∧ encodeWith T h d c = .ok F)

/-! ### Family CMD -/

/-- `ON` (R134): its frame, or `DeviceRequired`, goes to the caller and nothing else changes; the frame is one
of row `ON` and decodes back; its corner cases and its two examples. Choices it rests on: log entries 1, 2 and
15. -/
def Obligations.OnReturnsItsFrame : Prop :=
  (∀ (h : House) (d : Device) (s : State), exec (.turnOn h (some d)) s =
    .next (returned (.frame (middleFrame (houseCode h ||| highByte (deviceCode d)) (lowByte (deviceCode d)))) s)) ∧
  (∀ (h : House) (s : State), exec (.turnOn h none) s = .next (returned (.err .deviceRequired) s)) ∧
  (∀ (h : House) (d : Device), ∃ F, encodeCommand h (some d) .turnOn = .ok F ∧
    F &&& 0xFFFF0BA7FF = 0xD5AA0000AD ∧ decodeFrame F = .ok (.turnOn h (some d))) ∧
  (∀ h : House, encodeCommand h (some .d1) .turnOn = .ok (middleFrame (houseCode h) 0x00)) ∧
  encodeCommand .M (some .d1) .turnOn = .ok 0xD5AA0000AD ∧
  (∀ d : Device, (highByte (deviceCode d)).getLsbD 2 = decide (9 ≤ deviceNumber d + 1)) ∧
  (∀ d d' : Device, deviceNumber d' = deviceNumber d + 8 → lowByte (deviceCode d') = lowByte (deviceCode d)) ∧
  encodeCommand .F (some .d9) .turnOn = .ok 0xD5AA9400AD ∧ encodeCommand .J (some .d1) .turnOn = .ok 0xD5AAF000AD

/-- `OFF` (R135): as `ON` with command code `0x20`; it differs from `ON` in bit 5 of B3 and in nothing else. The
value `0x20` is from general knowledge. Choices it rests on: log entries 1, 2, 3 and 15. -/
def Obligations.OffReturnsItsFrame : Prop :=
  (∀ (h : House) (d : Device) (s : State), exec (.turnOff h (some d)) s =
    .next (returned
      (.frame (middleFrame (houseCode h ||| highByte (deviceCode d)) (lowByte (deviceCode d) ||| 0x20))) s)) ∧
  (∀ (h : House) (s : State), exec (.turnOff h none) s = .next (returned (.err .deviceRequired) s)) ∧
  (∀ (h : House) (d : Device), ∃ F G, encodeCommand h (some d) .turnOff = .ok F ∧
    F &&& 0xFFFF0BA7FF = 0xD5AA0020AD ∧ decodeFrame F = .ok (.turnOff h (some d)) ∧
    encodeCommand h (some d) .turnOn = .ok G ∧ F ^^^ G = 0x0000002000) ∧
  encodeCommand .A (some .d1) .turnOff = .ok 0xD5AA6020AD ∧
  encodeCommand .P (some .d16) .turnOff = .ok 0xD5AA3478AD

/-- `DIM` (R136): its frame goes to the caller whatever the device, and nothing else changes. Choices it rests
on: log entries 4 and 15. -/
def Obligations.DimReturnsItsFrame : Prop :=
  (∀ (h : House) (d : Option Device) (s : State), exec (.dim h d) s =
    .next (returned (.frame (middleFrame (houseCode h) 0x98)) s)) ∧
  (∀ (h : House) (d : Option Device), ∃ F, encodeCommand h d .dim = .ok F ∧
    F &&& 0xFFFF0FFFFF = 0xD5AA0098AD ∧ decodeFrame F = .ok (.dim h none) ∧
    (frameByte F 2).getLsbD 2 = false ∧ encodeCommand h d .dim = encodeCommand h none .dim) ∧
  encodeCommand .D none .dim = .ok 0xD5AA5098AD

/-- `BRIGHT` (R137): its frame goes to the caller whatever the device; it differs from `DIM` in bit 4 of B3
only. The value `0x88` is from general knowledge. Choices it rests on: log entries 1, 3, 4 and 15. -/
def Obligations.BrightReturnsItsFrame : Prop :=
  (∀ (h : House) (d : Option Device) (s : State), exec (.bright h d) s =
    .next (returned (.frame (middleFrame (houseCode h) 0x88)) s)) ∧
  (∀ (h : House) (d : Option Device), ∃ F G, encodeCommand h d .bright = .ok F ∧
    F &&& 0xFFFF0FFFFF = 0xD5AA0088AD ∧ decodeFrame F = .ok (.bright h none) ∧
    encodeCommand h d .dim = .ok G ∧ F ^^^ G = 0x0000001000) ∧
  encodeCommand .A none .bright = .ok 0xD5AA6088AD

/-- `ALL_ON` (R138): its frame goes to the caller whatever the device; `AllOn` is the only command whose B3 has
bit 0 set. Choices it rests on: log entries 2, 3, 4 and 15. -/
def Obligations.AllOnReturnsItsFrame : Prop :=
  (∀ (h : House) (d : Option Device) (s : State), exec (.allOn h d) s =
    .next (returned (.frame (middleFrame (houseCode h) 0x91)) s)) ∧
  (∀ (h : House) (d : Option Device), ∃ F, encodeCommand h d .allOn = .ok F ∧
    F &&& 0xFFFF0FFFFF = 0xD5AA0091AD ∧ decodeFrame F = .ok (.allOn h none) ∧
    encodeCommand h d .allOn = encodeCommand h none .allOn) ∧
  (∀ (h : House) (d : Option Device) (c : Command) (F : Frame), encodeCommand h d c = .ok F →
    (frameByte F 3).getLsbD 0 = decide (c = .allOn)) ∧
  encodeCommand .O none .allOn = .ok 0xD5AA2091AD

/-- `ALL_OFF` (R139): its frame goes to the caller whatever the device; for house M it differs from `M1 ON` in
bit 7 of B3 only. The value `0x80` is from general knowledge. Choices it rests on: log entries 1, 3, 4 and 15. -/
def Obligations.AllOffReturnsItsFrame : Prop :=
  (∀ (h : House) (d : Option Device) (s : State), exec (.allOff h d) s =
    .next (returned (.frame (middleFrame (houseCode h) 0x80)) s)) ∧
  (∀ (h : House) (d : Option Device), ∃ F, encodeCommand h d .allOff = .ok F ∧
    F &&& 0xFFFF0FFFFF = 0xD5AA0080AD ∧ decodeFrame F = .ok (.allOff h none)) ∧
  encodeCommand .M none .allOff = .ok 0xD5AA0080AD ∧
  (∃ F G, encodeCommand .M none .allOff = .ok F ∧ encodeCommand .M (some .d1) .turnOn = .ok G ∧
    F ^^^ G = 0x0000008000)

/-- `LAMPS_ON` (R140): its frame goes to the caller whatever the device; it differs from `LAMPS_OFF` in bit 4 of
B3 only and from `ALL_ON` in bits 2 and 0. The value `0x94` is from general knowledge. Choices it rests on: log
entries 3, 4 and 15. -/
def Obligations.LampsOnReturnsItsFrame : Prop :=
  (∀ (h : House) (d : Option Device) (s : State), exec (.lampsOn h d) s =
    .next (returned (.frame (middleFrame (houseCode h) 0x94)) s)) ∧
  (∀ (h : House) (d : Option Device), ∃ F G H, encodeCommand h d .lampsOn = .ok F ∧
    F &&& 0xFFFF0FFFFF = 0xD5AA0094AD ∧ decodeFrame F = .ok (.lampsOn h none) ∧
    encodeCommand h d .lampsOff = .ok G ∧ F ^^^ G = 0x0000001000 ∧
    encodeCommand h d .allOn = .ok H ∧ F ^^^ H = 0x0000000500) ∧
  encodeCommand .J none .lampsOn = .ok 0xD5AAF094AD

/-- `LAMPS_OFF` (R141): its frame goes to the caller whatever the device, and nothing else changes. Choices it
rests on: log entries 4 and 15. -/
def Obligations.LampsOffReturnsItsFrame : Prop :=
  (∀ (h : House) (d : Option Device) (s : State), exec (.lampsOff h d) s =
    .next (returned (.frame (middleFrame (houseCode h) 0x84)) s)) ∧
  (∀ (h : House) (d : Option Device), ∃ F, encodeCommand h d .lampsOff = .ok F ∧
    F &&& 0xFFFF0FFFFF = 0xD5AA0084AD ∧ decodeFrame F = .ok (.lampsOff h none) ∧
    encodeCommand h d .lampsOff = encodeCommand h none .lampsOff) ∧
  encodeCommand .O none .lampsOff = .ok 0xD5AA2084AD

/-- Purity (R132): a command of family CMD hands its caller a result that its operands alone decide, and changes
nothing else: no line write, no delay, no register; over any tables (R8) the result is the encoder's frame or
error. Choices it rests on: log entry 15. -/
def Obligations.EncoderIsPure : Prop :=
  (∀ (h : House) (d : Option Device) (c : Command), ∃ r : Result, ∀ s : State,
    exec (Instr.ofCommand h d c) s = .next { s with result := some r }) ∧
  (∀ (T : Tables) (h : House) (d : Option Device) (c : Command) (s : State),
    (∀ F, encodeWith T h d c = .ok F →
      execWith T (Instr.ofCommand h d c) s = .next { s with result := some (.frame F) }) ∧
    (∀ e, encodeWith T h d c = .error e →
      execWith T (Instr.ofCommand h d c) s = .next { s with result := some (.err e) }))

/-! ### Family SIG -/

/-- `RESET` (R174): outside a transmission it clears both lines whatever they were, then settles; when the line
write fails there is no settle and the caller receives the error. Used at entries 0 and 166. Choices it rests
on: log entries 7, 8, 11, 14 and 28. -/
def Obligations.ResetClearsBothLines : Prop :=
  decodeLine 0b00 = .reset ∧
  (∀ s : State, s.tx = none → answerAt s 0 = .ok → exec .reset s = .next (afterSignal ⟨false, false⟩ s)) ∧
  (∀ (s : State) (e : IoError) (left : Line), s.tx = none → answerAt s 0 = .fail e left →
    exec .reset s = .next (afterFailedSignal ⟨false, false⟩ e left s)) ∧
  (∀ (F : Frame) (i : Nat), entry i F = some (.write ⟨false, false⟩) ↔ (i = 0 ∨ i = 166))

/-- `STANDBY` (R175): outside a transmission it asserts both lines, then settles; when the line write fails
there is no settle and the caller receives the error. Used at entry 2 and as the second half of every `SENDBIT`.
Choices it rests on: log entries 7, 8, 11 and 14. -/
def Obligations.StandbyAssertsBothLines : Prop :=
  decodeLine 0b11 = .standby ∧
  (∀ s : State, s.tx = none → answerAt s 0 = .ok → exec .standby s = .next (afterSignal ⟨true, true⟩ s)) ∧
  (∀ (s : State) (e : IoError) (left : Line), s.tx = none → answerAt s 0 = .fail e left →
    exec .standby s = .next (afterFailedSignal ⟨true, true⟩ e left s)) ∧
  (∀ (F : Frame) (i : Nat),
    entry i F = some (.write ⟨true, true⟩) ↔ (i = 2 ∨ ∃ k, k < 40 ∧ i = 7 + 4 * k))

/-- `BIT1` (R176): outside a transmission it asserts RTS and clears DTR, then settles; when the line write fails
there is no settle and the caller receives the error. In a transmission it is issued from (1,1). Choices it
rests on: log entries 7, 11, 14 and 28. -/
def Obligations.BitOneAssertsRts : Prop :=
  decodeLine 0b10 = .bit1 ∧
  (∀ s : State, s.tx = none → answerAt s 0 = .ok → exec .bit1 s = .next (afterSignal ⟨true, false⟩ s)) ∧
  (∀ (s : State) (e : IoError) (left : Line), s.tx = none → answerAt s 0 = .fail e left →
    exec .bit1 s = .next (afterFailedSignal ⟨true, false⟩ e left s)) ∧
  (∀ (F : Frame) (i : Nat), entry i F = some (.write ⟨true, false⟩) → lastWrite F i = some ⟨true, true⟩)

/-- `BIT0` (R177): outside a transmission it asserts DTR and clears RTS, then settles; when the line write fails
there is no settle and the caller receives the error. In a transmission it is issued from (1,1). Choices it
rests on: log entries 7, 11, 14 and 28. -/
def Obligations.BitZeroAssertsDtr : Prop :=
  decodeLine 0b01 = .bit0 ∧
  (∀ s : State, s.tx = none → answerAt s 0 = .ok → exec .bit0 s = .next (afterSignal ⟨false, true⟩ s)) ∧
  (∀ (s : State) (e : IoError) (left : Line), s.tx = none → answerAt s 0 = .fail e left →
    exec .bit0 s = .next (afterFailedSignal ⟨false, true⟩ e left s)) ∧
  (∀ (F : Frame) (i : Nat), entry i F = some (.write ⟨false, true⟩) → lastWrite F i = some ⟨true, true⟩)

/-- The four words of format `LINE2` are the four line states, RTS in bit 1 and DTR in bit 0: the signal a word
decodes to drives the lines to that word (R104). Choices it rests on: log entries 14 and 28. -/
def Obligations.LineWordIsLineState : Prop :=
  ∀ (v : BitVec 2) (s : State), s.tx = none → answerAt s 0 = .ok →
    ∃ t, exec (decodeLine v) s = .next t ∧ t.line.rts = v.getLsbD 1 ∧ t.line.dtr = v.getLsbD 0

/-- No operation that writes the lines starts while a transmission is in progress (R309: the same holds for any
other writer of RTS or DTR): no instruction of family SIG, no `SENDBIT` or `SENDBYTE`, no transmission, no
`SEND` of a command that has a frame. That the model refuses it is the spec's decision D17. No other instruction
is ever refused. Choices it rests on: log entry 23. -/
def Obligations.BusyHandleRefused : Prop :=
  (∀ (s : State) (tx : Transmission), s.tx = some tx →
    exec .reset s = .refused .handleBusy ∧ exec .standby s = .refused .handleBusy ∧
    exec .bit1 s = .refused .handleBusy ∧ exec .bit0 s = .refused .handleBusy ∧
    (∀ F, callTransmit F s = .refused .handleBusy) ∧
    (∀ b, callSendBit b s = .refused .handleBusy) ∧ (∀ v, callSendByte v s = .refused .handleBusy) ∧
    (∀ h d c F, encodeCommand h d c = .ok F → callSend h d c s = .refused .handleBusy)) ∧
  (∀ (i : Instr) (s : State) (r : Refusal), exec i s = .refused r → r = .handleBusy ∧ s.tx ≠ none)

/-- `SENDBIT b` outside a transmission (R180): the bit's signal, its settle, standby, its settle; a failure of
the first write leaves out everything after it, a failure of the second only the last settle. Choices it rests
on: log entries 7, 10, 11 and 14. -/
def Obligations.SendBitIsBitThenStandby : Prop :=
  ∀ (b : Bool) (s : State), s.tx = none →
    (answerAt s 0 = .ok → answerAt s 1 = .ok → callSendBit b s = .next
      { s with line := ⟨true, true⟩, result := some .ok, answers := s.answers.drop 2, asked := s.asked + 2,
               trace := s.trace ++ [.wrote ⟨b, !b⟩, .settled, .wrote ⟨true, true⟩, .settled] }) ∧
    (∀ e left, answerAt s 0 = .fail e left → callSendBit b s = .next (afterFailedSignal ⟨b, !b⟩ e left s)) ∧
    (∀ e left, answerAt s 0 = .ok → answerAt s 1 = .fail e left → callSendBit b s = .next
      { s with line := left, result := some (.err (.ioError e)), answers := s.answers.drop 2, asked := s.asked + 2,
               trace := s.trace ++ [.wrote ⟨b, !b⟩, .settled, .failed ⟨true, true⟩ e] })

/-- Bit order (R64) and `SENDBYTE` (R214, R220): a byte goes out most significant bit first, each bit its signal
and standby; at the first failing write the operation stops, with no later event, and the caller receives the
error; nothing else changes. The byte `0b10110000` goes out as 1,0,1,1,0,0,0,0, and the wire order of the forty
bits of a frame is `F[39]` to `F[0]`. Choices it rests on: log entries 7, 10, 11 and 14. -/
def Obligations.MostSignificantBitFirst : Prop :=
  (∀ (v : Byte) (s : State), s.tx = none → NoWriteFails 16 s → callSendByte v s = .next
    { s with line := ⟨true, true⟩, result := some .ok, answers := s.answers.drop 16, asked := s.asked + 16,
             trace := s.trace ++ ([7, 6, 5, 4, 3, 2, 1, 0].map v.getLsbD).flatMap bitEvents }) ∧
  (∀ (v : Byte) (s : State) (n : Nat) (l : Line) (e : IoError) (left : Line), s.tx = none →
    (linesOfBits ([7, 6, 5, 4, 3, 2, 1, 0].map v.getLsbD))[n]? = some l →
    NoWriteFails n s → answerAt s n = .fail e left → callSendByte v s = .next
      { s with line := left, result := some (.err (.ioError e)),
               answers := s.answers.drop (n + 1), asked := s.asked + (n + 1),
               trace := s.trace ++
                 settledWrites ((linesOfBits ([7, 6, 5, 4, 3, 2, 1, 0].map v.getLsbD)).take n) ++ [.failed l e] }) ∧
  byteBits 0b10110000 = [true, false, true, true, false, false, false, false] ∧
  (∀ (F : Frame) (k : Nat), k < 40 →
    entry (5 + 4 * k) F = some (.write ⟨F.getLsbD (39 - k), !F.getLsbD (39 - k)⟩))

/-! ### The sequencer -/

/-- The start of a transmission (R201): only when `PH = IDLE`; `FR <- F` for any 40-bit value, `SPC <- 0`, `ERR
<- None`, the trace empty, `PH = RESET0`. The result of the operation before is emptied too, which R201 does not
say. LINE and everything else as it was. Choices it rests on: log entry 16. -/
def Obligations.TransmitStarts : Prop :=
  (∀ (F : Frame) (s : State), phase s = .idle →
    callTransmit F s = .next { s with tx := some ⟨F, 0, none⟩, trace := [], result := none }) ∧
  (∀ (F : Frame) (s t : State), callTransmit F s = .next t →
    phase s = .idle ∧ phase t = .reset0 ∧ t.line = s.line)

/-- The schedule, entry by entry (R203): only the forty entries `5 + 4k` depend on the frame. Choices it rests
on: log entry 10. -/
def Obligations.ScheduleEntries : Prop :=
  (∀ F : Frame,
    entry 0 F = some (.write ⟨false, false⟩) ∧ entry 1 F = some (.wait .settle) ∧
    entry 2 F = some (.write ⟨true, true⟩) ∧ entry 3 F = some (.wait .settle) ∧ entry 4 F = some (.wait .command) ∧
    (∀ k, k < 40 →
      entry (5 + 4 * k) F = some (.write ⟨F.getLsbD (39 - k), !F.getLsbD (39 - k)⟩) ∧
      entry (6 + 4 * k) F = some (.wait .settle) ∧ entry (7 + 4 * k) F = some (.write ⟨true, true⟩) ∧
      entry (8 + 4 * k) F = some (.wait .settle)) ∧
    entry 165 F = some (.wait .command) ∧ entry 166 F = some (.write ⟨false, false⟩) ∧
    entry 167 F = some (.wait .settle) ∧ (∀ i, 168 ≤ i → entry i F = none)) ∧
  (∀ (F G : Frame) (i : Nat), (∀ k, k < 40 → i ≠ 5 + 4 * k) → entry i F = entry i G)

/-- The step of the sequencer (R202; DONGLE by R205 and R262): a delay, a successful line write and a failing line
write; with `SPC = 168` or an error set no entry is executed any more. That the failing answer carries the levels
LINE is left at, and that the return is a step of its own, is the model's choice (log entries 7 and 21). -/
def Obligations.StepExecutesOneEntry : Prop :=
  ∀ (s : State) (tx : Transmission), s.tx = some tx →
    (tx.err = none → tx.spc < 168 →
      (∀ k, entry tx.spc tx.fr = some (.wait k) → step s = .next
        { s with tx := some ⟨tx.fr, tx.spc + 1, none⟩, trace := s.trace ++ [k.event],
                 dongle := if tx.spc + 1 = 168 then .idle else s.dongle }) ∧
      (∀ l, entry tx.spc tx.fr = some (.write l) → answerAt s 0 = .ok → step s = .next
        { s with tx := some ⟨tx.fr, tx.spc + 1, none⟩, line := l, trace := s.trace ++ [.wrote l],
                 answers := s.answers.tail, asked := s.asked + 1 }) ∧
      (∀ l e left, entry tx.spc tx.fr = some (.write l) → answerAt s 0 = .fail e left → step s = .next
        { s with tx := some ⟨tx.fr, tx.spc, some e⟩, line := left, trace := s.trace ++ [.failed l e],
                 dongle := .unknown, answers := s.answers.tail, asked := s.asked + 1 })) ∧
    (tx.err ≠ none ∨ tx.spc = 168 → ∃ t, step s = .next t ∧ t.tx = none ∧ t.line = s.line ∧ t.trace = s.trace)

/-- The end of a run (R222): success at `SPC = 168`, or the error; FR, SPC and ERR are discarded, `PH` becomes
`IDLE` and LINE keeps its value. That the return is a step of its own is the model's choice (log entry 21). -/
def Obligations.RunReturnsItsResult : Prop :=
  ∀ (s : State) (tx : Transmission), s.tx = some tx →
    (tx.err = none → tx.spc = 168 → step s = .next { s with tx := none, result := some .ok }) ∧
    (∀ e, tx.err = some e → step s = .next { s with tx := none, result := some (.err (.ioError e)) }) ∧
    (phase s = .done ∨ phase s = .fault → tx.spc ≤ 168 → ∃ t, step s = .next t ∧ phase t = .idle)

/-- Abort (R258, R220): a failed line write leaves SPC and FR as they were, sets ERR, appends its `X` event,
leaves LINE at whatever the driver left and the dongle unknown; the next step hands the error to the caller,
with no further write, delay or event. Choices it rests on: log entries 7, 11 and 21. -/
def Obligations.FailedWriteAborts : Prop :=
  ∀ (s : State) (tx : Transmission) (l : Line) (e : IoError) (left : Line),
    s.tx = some tx → tx.err = none → entry tx.spc tx.fr = some (.write l) → answerAt s 0 = .fail e left →
    ∃ t u, step s = .next t ∧ t.tx = some ⟨tx.fr, tx.spc, some e⟩ ∧ phase t = .fault ∧
      t.trace = s.trace ++ [.failed l e] ∧ t.line = left ∧ t.dongle = .unknown ∧
      step t = .next u ∧ u = { t with tx := none, result := some (.err (.ioError e)) }

/-- `SPC` and `FR` (R34, R32, R78): a step of a transmission adds one to SPC, or leaves it at the failing entry
and sets ERR; it is below 168 when either happens, so 168 is never incremented. FR never changes. Choices it
rests on: log entry 29. -/
def Obligations.SpcAdvancesByOne : Prop :=
  ∀ (s t : State) (tx tx' : Transmission), s.tx = some tx → step s = .next t → t.tx = some tx' →
    tx.spc < 168 ∧ tx.err = none ∧ tx'.fr = tx.fr ∧
      ((tx'.spc = tx.spc + 1 ∧ tx'.err = none) ∨ (tx'.spc = tx.spc ∧ tx'.err ≠ none))

/-- No data value changes how many entries are executed (R219): with the same driver, two transmissions at the same
position stay at the same position whatever their frames, lines and traces. -/
def Obligations.FrameDoesNotSteer : Prop :=
  ∀ (s s' t : State) (F F' : Frame) (n : Nat), s.tx = some ⟨F, n, none⟩ → s'.tx = some ⟨F', n, none⟩ →
    s.answers = s'.answers → s.asked = s'.asked → step s = .next t →
    ∃ t', step s' = .next t' ∧ t.answers = t'.answers ∧ t.asked = t'.asked ∧ phase t = phase t' ∧
      t.tx.map Transmission.spc = t'.tx.map Transmission.spc ∧
      t.tx.map Transmission.err = t'.tx.map Transmission.err

/-- The first entry makes a transmission independent of what LINE was (R45, R206): the step does not depend on
it, and a successful write leaves (0,0). When the write fails the levels are those that the answer carries, so
there the equation is the model's. Choices it rests on: log entries 7 and 8. -/
def Obligations.FirstEntryForgetsLine : Prop :=
  ∀ (s : State) (tx : Transmission) (l : Line), s.tx = some tx → tx.spc = 0 → tx.err = none →
    step s = step { s with line := l } ∧ (answerAt s 0 = .ok → ∃ t, step s = .next t ∧ t.line = ⟨false, false⟩)

/-- The invariant of a transmission is kept by every step (R34, R70, R74, R205, R258, R262), with the spec's
tables and over any tables (R8). Choices it rests on: log entries 10, 11 and 16. -/
def Obligations.InvariantKept : Prop :=
  (∀ s t : State, Inv s → step s = .next t → Inv t) ∧
  (∀ (T : Tables) (s t : State), Inv s → stepWith T s = .next t → Inv t)

/-- The invariant holds at reset. -/
def Obligations.InvariantAtReset : Prop := Inv State.reset

/-- Nothing else raises (R254): where the invariant holds a step never faults, and it refuses only a word that
encodes no instruction. Choices it rests on: log entries 13, 22 and 23. -/
def Obligations.NothingElseStops : Prop :=
  ∀ s : State, Inv s →
    (∀ r, step s ≠ .fault r) ∧
    (∀ r, step s = .refused r → s.tx = none ∧
      ∃ bytes rest why, s.ops = .word bytes :: rest ∧ decode bytes = .error why ∧ r = .notAnOperation why)

/-- A transmission with no failing line write (R205, R217, R218): after its 168 entries and its return the
caller has success, both lines are cleared, the dongle is idle, the trace is the closed form, 83 line writes
were answered, and the caller's other operations are untouched. Choices it rests on: log entries 6, 10 and 21. -/
def Obligations.SuccessfulTransmission : Prop :=
  ∀ (s : State) (F : Frame), NoWriteFails 83 s →
    steps 169 (startRun F s) = .next
      { s with tx := none, line := ⟨false, false⟩, dongle := .idle, trace := closedTrace F, result := some .ok,
               answers := s.answers.drop 83, asked := s.asked + 83 }

/-- A transmission whose first failing line write is that of entry `i` (R258, R261, R316): the caller has that
error, the trace is that of the entries below `i` and the failed write, LINE is at whatever the driver left and
the dongle is unknown. Choices it rests on: log entries 6, 7, 10, 11 and 21. -/
def Obligations.FaultedTransmission : Prop :=
  ∀ (s : State) (F : Frame) (i : Nat) (l : Line) (e : IoError) (left : Line),
    entry i F = some (.write l) → NoWriteFails (writesBelow F i) s →
    answerAt s (writesBelow F i) = .fail e left →
    steps (i + 2) (startRun F s) = .next
      { s with tx := none, line := left, dongle := .unknown, trace := scheduleTrace F i ++ [.failed l e],
               result := some (.err (.ioError e)), answers := s.answers.drop (writesBelow F i + 1),
               asked := s.asked + (writesBelow F i + 1) }

/-- The events of the 168 entries are the closed form of R218, and its counts are those of R217: the writes by
their value, the delays, and the forty bit signals. Header and footer alone give 14 `BIT1` and 10 `BIT0`, any
frame with them has 14 to 30 `BIT1`, and a frame of the encoder has 14 (`M1 ON`) to 23 (`J16 OFF`). Choices it
rests on: log entries 1, 2, 3, 4 and 10. -/
def Obligations.ScheduleTraceAndCounts : Prop :=
  (∀ F : Frame, scheduleTrace F 168 = closedTrace F ∧
    (closedTrace F).length = 168 ∧ (closedTrace F).count .settled = 83 ∧ (closedTrace F).count .commandWaited = 2 ∧
    (writtenLines (closedTrace F)).length = 83 ∧ (writtenLines (closedTrace F)).count ⟨false, false⟩ = 2 ∧
    (writtenLines (closedTrace F)).count ⟨true, true⟩ = 41 ∧
    (writtenLines (closedTrace F)).count ⟨true, false⟩ = (wireBits F).count true ∧
    (writtenLines (closedTrace F)).count ⟨false, true⟩ = (wireBits F).count false ∧
    (wireBits F).count true + (wireBits F).count false = 40) ∧
  (∀ F : Frame, frameByte F 0 = 0xD5 → frameByte F 1 = 0xAA → frameByte F 4 = 0xAD →
    ((wireBits F).take 16 ++ (wireBits F).drop 32).count true = 14 ∧
    ((wireBits F).take 16 ++ (wireBits F).drop 32).count false = 10 ∧
    14 ≤ (wireBits F).count true ∧ (wireBits F).count true ≤ 30) ∧
  (∀ (h : House) (d : Option Device) (c : Command) (F : Frame), encodeCommand h d c = .ok F →
    14 ≤ (wireBits F).count true ∧ (wireBits F).count true ≤ 23) ∧
  (∃ F, encodeCommand .M (some .d1) .turnOn = .ok F ∧ (wireBits F).count true = 14) ∧
  (∃ F, encodeCommand .J (some .d16) .turnOff = .ok F ∧ (wireBits F).count true = 23)

/-- What a faulted transmission has done before the failing entry (R316). Choices it rests on: log entry 10. -/
def Obligations.CountsBeforeAnEntry : Prop :=
  ∀ F : Frame,
    writesBelow F 0 = 0 ∧ writesBelow F 2 = 1 ∧ writesBelow F 166 = 82 ∧
    (∀ k, k < 40 → writesBelow F (5 + 4 * k) = 2 + 2 * k ∧ writesBelow F (7 + 4 * k) = 3 + 2 * k) ∧
    (∀ i l, entry i F = some (.write l) →
      (writtenLines (scheduleTrace F i)).length = writesBelow F i ∧
      (scheduleTrace F i).count .settled = writesBelow F i ∧
      (scheduleTrace F i).count .commandWaited = if i ≤ 4 then 0 else if i ≤ 165 then 1 else 2)

/-- Hazards kept by the schedule (R304 to R307): a settle after every write; after a bit signal the next write
is standby; every bit signal comes after the arm sequence reset, standby, settle, command wait, in this order;
the final reset comes directly after the last bit, its standby, its settle and the command wait, in this order.
Choices it rests on: log entry 10. -/
def Obligations.ScheduleKeepsHazardRules : Prop :=
  ∀ (F : Frame) (i : Nat) (l : Line), entry i F = some (.write l) →
    entry (i + 1) F = some (.wait .settle) ∧
    (∀ b, l = bitLine b → entry (i + 2) F = some (.write ⟨true, true⟩) ∧
      [.wrote ⟨false, false⟩, .settled, .wrote ⟨true, true⟩, .settled, .commandWaited] <+: scheduleTrace F i) ∧
    (l = ⟨false, false⟩ → i ≠ 0 → (scheduleTrace F i).count .commandWaited = 2 ∧
      ∃ b, bitEvents b ++ [.commandWaited] <:+ scheduleTrace F i)

/-- Both lines change in one write only at entries 2 and 166, and at entry 0 when LINE was left at (1,1): in the
bit window a write shows the same line values whether or not line writes are atomic (R69, R178, R312). Choices
it rests on: log entries 8 and 10. -/
def Obligations.FewWritesChangeBothLines : Prop :=
  (∀ (F : Frame) (i : Nat) (l old : Line), entry i F = some (.write l) → lastWrite F i = some old →
    ((old.rts ≠ l.rts ∧ old.dtr ≠ l.dtr) ↔ (i = 2 ∨ i = 166)) ∧
    (5 ≤ i → i < 165 → ∀ rtsFirst, splitWrite rtsFirst old l = [l])) ∧
  (∀ (F : Frame) (i : Nat) (l : Line), entry i F = some (.write l) → (lastWrite F i = none ↔ i = 0)) ∧
  (∀ (rtsFirst : Bool) (old : Line), splitWrite rtsFirst old ⟨false, false⟩ ≠ [⟨false, false⟩] ↔ old = ⟨true, true⟩)

/-- Between entry 2 and entry 166 of a run without fault at least one line is asserted (R274). Choices it rests
on: log entry 8. -/
def Obligations.ALineStaysAsserted : Prop :=
  ∀ (s : State) (tx : Transmission), s.tx = some tx → Inv s → tx.err = none → 2 < tx.spc → tx.spc ≤ 166 →
    s.line.rts = true ∨ s.line.dtr = true

/-- The least duration of a complete transmission (R221, R315): `83 · T_SETTLE + 2 · T_COMMAND`, which is at
least 200 ms for every legal choice of the two parameters. That durations are whole nanoseconds, so that 200 ms
is 200000000, is the model's choice (log entry 30). Choices it rests on: log entries 9, 10 and 30. -/
def Obligations.LeastDurationOfTransmission : Prop :=
  ∀ (t : Timing) (F : Frame),
    leastDuration t (scheduleTrace F 168) = 83 * t.settle + 2 * t.command ∧
    (t.Legal → 200000000 ≤ leastDuration t (scheduleTrace F 168))

/-- The wire carries the frame (R225): the dongle-side reading of a successful trace has forty bits, spells the
frame, and decoding it gives the normalised command, with the spec's tables and over any legal tables (R8). The
reading is the spec's own abstraction (R224, D18). Choices it rests on: log entries 1 to 4, 10, 26 and 31. -/
def Obligations.WireCarriesTheFrame : Prop :=
  (∀ F : Frame, rxBits (closedTrace F) = some (wireBits F) ∧ rxFrame (closedTrace F) = some F) ∧
  (∀ (h : House) (d : Option Device) (c : Command) (F : Frame), encodeCommand h d c = .ok F →
    decodeFrame F = .ok (Instr.ofCommand h (normalDevice d c) c)) ∧
  (∀ (T : Tables), TablesLegal T → ∀ (h : House) (d : Option Device) (c : Command) (F : Frame),
    encodeWith T h d c = .ok F →
      ∃ G, rxFrame (closedTrace F) = some G ∧ decodeFrameWith T G = .ok (Instr.ofCommand h (normalDevice d c) c))

/-- A trace that lacks the final reset is no complete frame, and a faulted transmission lacks it (R224, R261).
Choices it rests on: log entry 26. -/
def Obligations.FaultedTraceIsNoFrame : Prop :=
  ∀ (F : Frame) (i : Nat) (l : Line) (e : IoError), entry i F = some (.write l) →
    rxFrame (scheduleTrace F i ++ [.failed l e]) = none

/-! ### The caller -/

/-- `SEND h d c` (R226, R225): with no failing line write, the caller's next operation `SEND` puts on the wire a
frame that reads back as the command asked for. Choices it rests on: log entries 12, 21 and 26. -/
def Obligations.SendDeliversTheCommand : Prop :=
  ∀ (s : State) (h : House) (d : Option Device) (c : Command) (F : Frame) (rest : List CallerOp),
    s.tx = none → s.ops = .send h d c :: rest → encodeCommand h d c = .ok F → NoWriteFails 83 s →
    ∃ t G, steps 170 s = .next t ∧ t.result = some .ok ∧ t.ops = rest ∧ t.line = ⟨false, false⟩ ∧
      rxFrame t.trace = some G ∧ decodeFrame G = .ok (Instr.ofCommand h (normalDevice d c) c)

/-- `SEND` of On or Off without a device (R226, R260): the transmission does not start; no line write, no delay,
LINE and the dongle as they were, the trace empty. Choices it rests on: log entries 12 and 16. -/
def Obligations.SendWithoutDevice : Prop :=
  ∀ (s : State) (h : House) (c : Command) (rest : List CallerOp), c = .turnOn ∨ c = .turnOff →
    s.tx = none → s.ops = .send h none c :: rest →
    step s = .next { s with ops := rest, trace := [], result := some (.err .deviceRequired) }

/-- A step performs the caller's next operation, with no transmission in progress: the word that it holds is
decoded and run, an instruction is run, and `TRANSMIT`, `SENDBIT`, `SENDBYTE` and `SEND` (R116) are performed.
Around it, the operation leaves the list and its trace and result start empty (the model's choice, log entries
12 and 16). A word that encodes no instruction is refused by name (R111, and U6 of 93_implementation_defined.md;
log entry 13). Over any tables (R8) the step does the same with the decoder and the encoder of these tables (log
entry 31), and a transmission in progress does not depend on them. -/
def Obligations.StepRunsTheDecodedInstruction : Prop :=
  (∀ (s : State) (bytes : List Byte) (rest : List CallerOp) (i : Instr), s.tx = none →
    s.ops = .word bytes :: rest → decode bytes = .ok i →
    step s = exec i { s with ops := rest, trace := [], result := none }) ∧
  (∀ (s : State) (rest : List CallerOp) (i : Instr), s.tx = none → s.ops = .call i :: rest →
    step s = exec i { s with ops := rest, trace := [], result := none }) ∧
  (∀ (s : State) (F : Frame) (rest : List CallerOp), s.tx = none → s.ops = .transmit F :: rest →
    step s = callTransmit F { s with ops := rest, trace := [], result := none } ∧
    step s = .next { s with ops := rest, tx := some ⟨F, 0, none⟩, trace := [], result := none }) ∧
  (∀ (s : State) (b : Bool) (rest : List CallerOp), s.tx = none → s.ops = .sendBit b :: rest →
    step s = callSendBit b { s with ops := rest, trace := [], result := none }) ∧
  (∀ (s : State) (v : Byte) (rest : List CallerOp), s.tx = none → s.ops = .sendByte v :: rest →
    step s = callSendByte v { s with ops := rest, trace := [], result := none }) ∧
  (∀ (s : State) (h : House) (d : Option Device) (c : Command) (F : Frame) (rest : List CallerOp), s.tx = none →
    s.ops = .send h d c :: rest → encodeCommand h d c = .ok F →
    step s = callTransmit F { s with ops := rest, trace := [], result := none }) ∧
  (∀ (s : State) (bytes : List Byte) (rest : List CallerOp) (why : DecodeError), s.tx = none →
    s.ops = .word bytes :: rest → decode bytes = .error why → step s = .refused (.notAnOperation why)) ∧
  (∀ (T : Tables) (s : State), s.tx ≠ none → stepWith T s = step s) ∧
  (∀ (T : Tables) (s : State) (bytes : List Byte) (rest : List CallerOp) (i : Instr), s.tx = none →
    s.ops = .word bytes :: rest → decodeWith T bytes = .ok i →
    stepWith T s = execWith T i { s with ops := rest, trace := [], result := none }) ∧
  (∀ (T : Tables) (s : State) (rest : List CallerOp) (i : Instr), s.tx = none → s.ops = .call i :: rest →
    stepWith T s = execWith T i { s with ops := rest, trace := [], result := none }) ∧
  (∀ (T : Tables) (s : State) (h : House) (d : Option Device) (c : Command) (F : Frame) (rest : List CallerOp),
    s.tx = none → s.ops = .send h d c :: rest → encodeWith T h d c = .ok F →
    stepWith T s = .next { s with ops := rest, tx := some ⟨F, 0, none⟩, trace := [], result := none }) ∧
  (∀ (T : Tables) (s : State) (h : House) (d : Option Device) (c : Command) (e : OpError) (rest : List CallerOp),
    s.tx = none → s.ops = .send h d c :: rest → encodeWith T h d c = .error e →
    stepWith T s = .next { s with ops := rest, trace := [], result := some (.err e) }) ∧
  (∀ (T : Tables) (s : State) (bytes : List Byte) (rest : List CallerOp) (why : DecodeError), s.tx = none →
    s.ops = .word bytes :: rest → decodeWith T bytes = .error why →
    stepWith T s = .refused (.notAnOperation why)) ∧
  (∀ (T : Tables) (s : State) (rest : List CallerOp),
    s.ops = [] ∨ (∃ F, s.ops = .transmit F :: rest) ∨ (∃ b, s.ops = .sendBit b :: rest) ∨
      (∃ v, s.ops = .sendByte v :: rest) → stepWith T s = step s) ∧
  (∀ (T : Tables) (s : State), execWith T .reset s = exec .reset s ∧ execWith T .standby s = exec .standby s ∧
    execWith T .bit1 s = exec .bit1 s ∧ execWith T .bit0 s = exec .bit0 s)

/-- With no operation to come, the block holds its lines and does nothing (R292; the model's step for it, log
entry 24). -/
def Obligations.IdleBlockHoldsItsLines : Prop :=
  ∀ s : State, s.tx = none → s.ops = [] → step s = .next s

/-! ### Whole-machine rules -/

/-- LINE changes only by a line write (R36, R172): a step in which the driver answers no write leaves it alone.
Choices it rests on: log entry 6. -/
def Obligations.LineChangesOnlyByWrites : Prop :=
  ∀ s t : State, step s = .next t → t.asked = s.asked → t.line = s.line

/-- `DONGLE` becomes idle only when a transmission reaches its end, and unknown only when one faults (R42).
Choices it rests on: log entry 17. -/
def Obligations.DongleFollowsTheTransmission : Prop :=
  ∀ s t : State, step s = .next t → t.dongle ≠ s.dongle →
    (t.dongle = .idle → phase t = .done) ∧ (t.dongle = .unknown → phase t = .fault)

/-- What reset leaves (R45): no transmission, `PH = IDLE`, `DONGLE = UNKNOWN`, LINE at the open value
`LINE_AT_OPEN`. Choices it rests on: log entries 5 and 25. -/
def Obligations.ResetIsQuiescent : Prop :=
  State.reset.tx = none ∧ phase State.reset = .idle ∧ State.reset.dongle = .unknown ∧
    State.reset.line = Config.lineAtOpen

/-- The phase of a transmission, by the ranges of `SPC` (R33). -/
def Obligations.PhaseByPosition : Prop :=
  ∀ (s : State) (tx : Transmission), s.tx = some tx →
    (∀ e, tx.err = some e → phase s = .fault) ∧
    (tx.err = none → tx.spc ≤ 168 →
      ((phase s = .reset0 ↔ tx.spc ≤ 1) ∧ (phase s = .standby0 ↔ 2 ≤ tx.spc ∧ tx.spc ≤ 3) ∧
       (phase s = .armWait ↔ tx.spc = 4) ∧ (phase s = .bits ↔ 5 ≤ tx.spc ∧ tx.spc ≤ 164) ∧
       (phase s = .disarmWait ↔ tx.spc = 165) ∧ (phase s = .reset1 ↔ 166 ≤ tx.spc ∧ tx.spc ≤ 167) ∧
       (phase s = .done ↔ tx.spc = 168)))
end

