-- ==== Sys2Proof/Laws/State.lean ====
section
/-! SUPPORT. What each named operation leaves in each field of the state: one lemma per field per operation. -/

namespace Sys2Proof.Machine

/-! ### `consumeAnswer` -/

@[simp] theorem consumeAnswer_tx (s : State) : (consumeAnswer s).tx = s.tx := rfl
@[simp] theorem consumeAnswer_line (s : State) : (consumeAnswer s).line = s.line := rfl
@[simp] theorem consumeAnswer_dongle (s : State) : (consumeAnswer s).dongle = s.dongle := rfl
@[simp] theorem consumeAnswer_trace (s : State) : (consumeAnswer s).trace = s.trace := rfl
@[simp] theorem consumeAnswer_result (s : State) : (consumeAnswer s).result = s.result := rfl
@[simp] theorem consumeAnswer_ops (s : State) : (consumeAnswer s).ops = s.ops := rfl
@[simp] theorem consumeAnswer_answers (s : State) : (consumeAnswer s).answers = s.answers.tail := rfl
@[simp] theorem consumeAnswer_asked (s : State) : (consumeAnswer s).asked = s.asked + 1 := rfl

/-! ### `delay` -/

@[simp] theorem delay_tx (k : DelayKind) (s : State) : (delay k s).tx = s.tx := rfl
@[simp] theorem delay_line (k : DelayKind) (s : State) : (delay k s).line = s.line := rfl
@[simp] theorem delay_dongle (k : DelayKind) (s : State) : (delay k s).dongle = s.dongle := rfl
@[simp] theorem delay_trace (k : DelayKind) (s : State) : (delay k s).trace = s.trace ++ [k.event] := rfl
@[simp] theorem delay_result (k : DelayKind) (s : State) : (delay k s).result = s.result := rfl
@[simp] theorem delay_ops (k : DelayKind) (s : State) : (delay k s).ops = s.ops := rfl
@[simp] theorem delay_answers (k : DelayKind) (s : State) : (delay k s).answers = s.answers := rfl
@[simp] theorem delay_asked (k : DelayKind) (s : State) : (delay k s).asked = s.asked := rfl

/-! ### `startRun` -/

@[simp] theorem startRun_tx (F : Frame) (s : State) : (startRun F s).tx = some ⟨F, 0, none⟩ := rfl
@[simp] theorem startRun_line (F : Frame) (s : State) : (startRun F s).line = s.line := rfl
@[simp] theorem startRun_dongle (F : Frame) (s : State) : (startRun F s).dongle = s.dongle := rfl
@[simp] theorem startRun_trace (F : Frame) (s : State) : (startRun F s).trace = [] := rfl
@[simp] theorem startRun_result (F : Frame) (s : State) : (startRun F s).result = none := rfl
@[simp] theorem startRun_ops (F : Frame) (s : State) : (startRun F s).ops = s.ops := rfl
@[simp] theorem startRun_answers (F : Frame) (s : State) : (startRun F s).answers = s.answers := rfl
@[simp] theorem startRun_asked (F : Frame) (s : State) : (startRun F s).asked = s.asked := rfl

/-! ### `finishRun` -/

@[simp] theorem finishRun_tx (tx : Transmission) (s : State) : (finishRun tx s).tx = none := rfl
@[simp] theorem finishRun_line (tx : Transmission) (s : State) : (finishRun tx s).line = s.line := rfl
@[simp] theorem finishRun_dongle (tx : Transmission) (s : State) : (finishRun tx s).dongle = s.dongle := rfl
@[simp] theorem finishRun_trace (tx : Transmission) (s : State) : (finishRun tx s).trace = s.trace := rfl
@[simp] theorem finishRun_result (tx : Transmission) (s : State) : (finishRun tx s).result = some (runResult tx) := rfl
@[simp] theorem finishRun_ops (tx : Transmission) (s : State) : (finishRun tx s).ops = s.ops := rfl
@[simp] theorem finishRun_answers (tx : Transmission) (s : State) : (finishRun tx s).answers = s.answers := rfl
@[simp] theorem finishRun_asked (tx : Transmission) (s : State) : (finishRun tx s).asked = s.asked := rfl

/-! ### `advance` -/

@[simp] theorem advance_tx (tx : Transmission) (s : State) : (advance tx s).tx = some ⟨tx.fr, tx.spc + 1, tx.err⟩ := rfl
@[simp] theorem advance_line (tx : Transmission) (s : State) : (advance tx s).line = s.line := rfl
@[simp] theorem advance_dongle (tx : Transmission) (s : State) : (advance tx s).dongle = if tx.spc + 1 = 168 then .idle else s.dongle := rfl
@[simp] theorem advance_trace (tx : Transmission) (s : State) : (advance tx s).trace = s.trace := rfl
@[simp] theorem advance_result (tx : Transmission) (s : State) : (advance tx s).result = s.result := rfl
@[simp] theorem advance_ops (tx : Transmission) (s : State) : (advance tx s).ops = s.ops := rfl
@[simp] theorem advance_answers (tx : Transmission) (s : State) : (advance tx s).answers = s.answers := rfl
@[simp] theorem advance_asked (tx : Transmission) (s : State) : (advance tx s).asked = s.asked := rfl

/-! ### `beginOp` -/

@[simp] theorem beginOp_tx (rest : List CallerOp) (s : State) : (beginOp rest s).tx = s.tx := rfl
@[simp] theorem beginOp_line (rest : List CallerOp) (s : State) : (beginOp rest s).line = s.line := rfl
@[simp] theorem beginOp_dongle (rest : List CallerOp) (s : State) : (beginOp rest s).dongle = s.dongle := rfl
@[simp] theorem beginOp_trace (rest : List CallerOp) (s : State) : (beginOp rest s).trace = [] := rfl
@[simp] theorem beginOp_result (rest : List CallerOp) (s : State) : (beginOp rest s).result = none := rfl
@[simp] theorem beginOp_ops (rest : List CallerOp) (s : State) : (beginOp rest s).ops = rest := rfl
@[simp] theorem beginOp_answers (rest : List CallerOp) (s : State) : (beginOp rest s).answers = s.answers := rfl
@[simp] theorem beginOp_asked (rest : List CallerOp) (s : State) : (beginOp rest s).asked = s.asked := rfl

/-! ### `loadWord` -/

@[simp] theorem loadWord_tx (bytes : List Byte) (s : State) : (loadWord bytes s).tx = none := rfl
@[simp] theorem loadWord_line (bytes : List Byte) (s : State) : (loadWord bytes s).line = s.line := rfl
@[simp] theorem loadWord_dongle (bytes : List Byte) (s : State) : (loadWord bytes s).dongle = s.dongle := rfl
@[simp] theorem loadWord_trace (bytes : List Byte) (s : State) : (loadWord bytes s).trace = s.trace := rfl
@[simp] theorem loadWord_result (bytes : List Byte) (s : State) : (loadWord bytes s).result = s.result := rfl
@[simp] theorem loadWord_ops (bytes : List Byte) (s : State) : (loadWord bytes s).ops = .word bytes :: s.ops := rfl
@[simp] theorem loadWord_answers (bytes : List Byte) (s : State) : (loadWord bytes s).answers = s.answers := rfl
@[simp] theorem loadWord_asked (bytes : List Byte) (s : State) : (loadWord bytes s).asked = s.asked := rfl

/-! ### `raise` -/

theorem raise_deviceRequired (s : State) : raise .deviceRequired s = returned (.err .deviceRequired) s := rfl

theorem raise_ioError_idle (e : IoError) (s : State) (h : s.tx = none) :
    raise (.ioError e) s = returned (.err (.ioError e)) s := by
  simp [raise, returned, h]

theorem raise_ioError_running (e : IoError) (s : State) (tx : Transmission) (h : s.tx = some tx) :
    raise (.ioError e) s = { s with tx := some { tx with err := some e }, dongle := .unknown } := by
  simp [raise, h]

@[simp] theorem raise_line (e : OpError) (s : State) : (raise e s).line = s.line := by
  unfold raise; split <;> rfl

@[simp] theorem raise_trace (e : OpError) (s : State) : (raise e s).trace = s.trace := by
  unfold raise; split <;> rfl

@[simp] theorem raise_ops (e : OpError) (s : State) : (raise e s).ops = s.ops := by
  unfold raise; split <;> rfl

@[simp] theorem raise_answers (e : OpError) (s : State) : (raise e s).answers = s.answers := by
  unfold raise; split <;> rfl

@[simp] theorem raise_asked (e : OpError) (s : State) : (raise e s).asked = s.asked := by
  unfold raise; split <;> rfl

@[simp] theorem returned_tx (r : Result) (s : State) : (returned r s).tx = s.tx := rfl
@[simp] theorem returned_line (r : Result) (s : State) : (returned r s).line = s.line := rfl
@[simp] theorem returned_dongle (r : Result) (s : State) : (returned r s).dongle = s.dongle := rfl
@[simp] theorem returned_trace (r : Result) (s : State) : (returned r s).trace = s.trace := rfl
@[simp] theorem returned_result (r : Result) (s : State) : (returned r s).result = some r := rfl
@[simp] theorem returned_ops (r : Result) (s : State) : (returned r s).ops = s.ops := rfl
@[simp] theorem returned_answers (r : Result) (s : State) : (returned r s).answers = s.answers := rfl
@[simp] theorem returned_asked (r : Result) (s : State) : (returned r s).asked = s.asked := rfl

end Sys2Proof.Machine
end

