-- ==== Sys2Proof/Laws/Ops.lean ====
section
/-! SUPPORT. One spec lemma per shared operation: everything it can do. -/

namespace Sys2Proof.Machine

/-! ### The driver's answers -/

/-- Consuming one answer moves every later one up by one place. -/
theorem answerAt_consumeAnswer (s : State) (k : Nat) : answerAt (consumeAnswer s) k = answerAt s (k + 1) := by
  simp [answerAt, show s.asked + 1 + k = s.asked + (k + 1) by omega]

/-- The answers depend on nothing but the list of answers and the count of writes answered. -/
theorem answerAt_congr {s s' : State} (ha : s.answers = s'.answers) (hk : s.asked = s'.asked) (k : Nat) :
    answerAt s k = answerAt s' k := by
  simp [answerAt, ha, hk]

/-- When one of the next `n + 1` writes is over, none of the next `n` fails. -/
theorem noWriteFails_tail {n : Nat} {s s' : State} (h : NoWriteFails (n + 1) s)
    (ha : s'.answers = s.answers.tail) (hk : s'.asked = s.asked + 1) : NoWriteFails n s' := fun k hlt => by
  rw [answerAt_congr (s' := consumeAnswer s) ha hk, answerAt_consumeAnswer]
  exact h (k + 1) (by omega)

/-! ### The line write -/

theorem lineWrite_ok (l : Line) (s : State) (h : answerAt s 0 = .ok) :
    lineWrite l s = ({ s with
        line := l, trace := s.trace ++ [.wrote l],
        answers := s.answers.tail, asked := s.asked + 1 }, none) := by
  simp [lineWrite, h, consumeAnswer]

theorem lineWrite_fail (l : Line) (s : State) (e : IoError) (left : Line) (h : answerAt s 0 = .fail e left) :
    lineWrite l s = ({ s with
        line := left, trace := s.trace ++ [.failed l e],
        answers := s.answers.tail, asked := s.asked + 1 }, some e) := by
  simp [lineWrite, h, consumeAnswer]

/-- A line write succeeds or fails, as the driver answers; there is no third case. -/
theorem lineWrite_cases (l : Line) (s : State) :
    (answerAt s 0 = .ok ∧
      lineWrite l s = ({ s with
        line := l, trace := s.trace ++ [.wrote l],
        answers := s.answers.tail, asked := s.asked + 1 }, none)) ∨
    (∃ e left, answerAt s 0 = .fail e left ∧
      lineWrite l s = ({ s with
        line := left, trace := s.trace ++ [.failed l e],
        answers := s.answers.tail, asked := s.asked + 1 }, some e)) := by
  cases h : answerAt s 0 with
  | ok => exact .inl ⟨rfl, lineWrite_ok l s h⟩
  | fail e left => exact .inr ⟨e, left, rfl, lineWrite_fail l s e left h⟩

/-! ### The signal -/

theorem signal_ok (l : Line) (s : State) (h : answerAt s 0 = .ok) :
    signal l s =
      ({ s with
        line := l, trace := s.trace ++ [.wrote l, .settled],
        answers := s.answers.tail, asked := s.asked + 1 }, none) := by
  simp [signal, lineWrite_ok l s h, delay, DelayKind.event]

theorem signal_fail (l : Line) (s : State) (e : IoError) (left : Line) (h : answerAt s 0 = .fail e left) :
    signal l s = ({ s with
        line := left, trace := s.trace ++ [.failed l e],
        answers := s.answers.tail, asked := s.asked + 1 }, some e) := by
  simp [signal, lineWrite_fail l s e left h]

/-- No signal starts or ends a transmission. -/
theorem signal_tx (l : Line) (s : State) : (signal l s).1.tx = s.tx := by
  obtain ⟨h, -⟩ | ⟨e, left, h, -⟩ := lineWrite_cases l s
  · simp [signal_ok l s h]
  · simp [signal_fail l s e left h]

/-! ### `SENDBIT` and `SENDBYTE` -/

theorem sendBit_ok (b : Bool) (s : State) (h0 : answerAt s 0 = .ok) (h1 : answerAt s 1 = .ok) :
    sendBit b s =
      ({ s with line := standbyLine, trace := s.trace ++ bitEvents b, answers := s.answers.drop 2,
                asked := s.asked + 2 }, none) := by
  have h : answerAt { s with
        line := bitLine b, trace := s.trace ++ [.wrote (bitLine b), .settled],
        answers := s.answers.tail, asked := s.asked + 1 } 0 = .ok :=
    (answerAt_congr (s' := consumeAnswer s) rfl rfl 0).trans ((answerAt_consumeAnswer s 0).trans h1)
  simp [sendBit, signal_ok _ s h0, signal_ok _ _ h, bitEvents]
  simp [← List.drop_one]

theorem sendBits_ok (bs : List Bool) : ∀ s : State, NoWriteFails (2 * bs.length) s →
    sendBits bs s =
      ({ s with line := if bs = [] then s.line else standbyLine, trace := s.trace ++ bs.flatMap bitEvents,
                answers := s.answers.drop (2 * bs.length), asked := s.asked + 2 * bs.length }, none) := by
  induction bs with
  | nil => intro s _; simp [sendBits]
  | cons b bs ih =>
    intro s h
    have h0 := h 0 (by simp)
    have h1 := h 1 (by simp [Nat.mul_add])
    have hrest : NoWriteFails (2 * bs.length)
        { s with line := standbyLine, trace := s.trace ++ bitEvents b, answers := s.answers.drop 2,
                 asked := s.asked + 2 } := by
      intro k hk
      have := h (k + 2) (by simp [Nat.mul_add]; omega)
      simpa [answerAt, Nat.add_assoc, Nat.add_comm, Nat.add_left_comm] using this
    rw [sendBits, sendBit_ok b s h0 h1]
    simp only [ih _ hrest]
    simp [Nat.mul_add, Nat.add_comm, Nat.add_assoc]

/-- A run of `SENDBIT`s whose first failing write is number `n`: the writes before it have their settles, and nothing
comes after it. -/
theorem sendBits_fail (bs : List Bool) : ∀ (s : State) (n : Nat) (l : Line) (e : IoError) (left : Line),
    (linesOfBits bs)[n]? = some l → NoWriteFails n s → answerAt s n = .fail e left →
    sendBits bs s =
      ({ s with line := left, trace := s.trace ++ settledWrites ((linesOfBits bs).take n) ++ [.failed l e],
                answers := s.answers.drop (n + 1), asked := s.asked + (n + 1) }, some e) := by
  induction bs with
  | nil => intro s n l e left hl; simp [linesOfBits] at hl
  | cons b bs ih =>
    intro s n l e left hl hok hf
    have hb : linesOfBits (b :: bs) = bitLine b :: standbyLine :: linesOfBits bs := rfl
    rw [hb] at hl ⊢
    match n with
    | 0 =>
      obtain rfl : bitLine b = l := by simpa using hl
      simp [sendBits, sendBit, signal_fail _ s e left hf, settledWrites]
    | 1 =>
      obtain rfl : standbyLine = l := by simpa using hl
      have hf' : answerAt { s with
          line := bitLine b, trace := s.trace ++ [.wrote (bitLine b), .settled],
          answers := s.answers.tail, asked := s.asked + 1 } 0 = .fail e left :=
        (answerAt_congr (s' := consumeAnswer s) rfl rfl 0).trans ((answerAt_consumeAnswer s 0).trans hf)
      simp [sendBits, sendBit, signal_ok _ s (hok 0 (by omega)), signal_fail _ _ e left hf', settledWrites]
      simp [← List.drop_one]
    | n + 2 =>
      have shift (k : Nat) : answerAt { s with
          line := standbyLine, trace := s.trace ++ bitEvents b, answers := s.answers.drop 2,
          asked := s.asked + 2 } k = answerAt s (k + 2) := by
        simp [answerAt, Nat.add_comm, Nat.add_left_comm]
      rw [sendBits, sendBit_ok b s (hok 0 (by omega)) (hok 1 (by omega))]
      simp only [ih _ n l e left (by simpa using hl) (fun k hk => (shift k).trans (hok _ (by omega)))
        ((shift n).trans hf)]
      simp [settledWrites, bitEvents, bitLine, standbyLine, Nat.add_assoc, Nat.add_comm, Nat.add_left_comm]

/-! ### The end of a caller's own signal -/

theorem finishSignal_ok (s : State) : finishSignal (s, none) = returned .ok s := rfl

theorem finishSignal_fail (s : State) (e : IoError) : finishSignal (s, some e) = raise (.ioError e) s := rfl

theorem whenIdle_idle (s t : State) (h : s.tx = none) : whenIdle s t = .next t := by
  simp [whenIdle, busy, h]

theorem whenIdle_busy (s t : State) (tx : Transmission) (h : s.tx = some tx) :
    whenIdle s t = .refused .handleBusy := by
  simp [whenIdle, busy, h]

/-- A signal asked for by the caller, all it can do: refused while a transmission is in progress, else it succeeds
or hands over the error of its line write. -/
theorem callSignal_cases (l : Line) (s : State) :
    (∃ tx, s.tx = some tx ∧ callSignal l s = .refused .handleBusy) ∨
    (s.tx = none ∧ answerAt s 0 = .ok ∧ callSignal l s = .next (afterSignal l s)) ∨
    (∃ e left, s.tx = none ∧ answerAt s 0 = .fail e left ∧
      callSignal l s = .next (afterFailedSignal l e left s)) := by
  cases htx : s.tx with
  | some tx => exact .inl ⟨tx, rfl, whenIdle_busy s _ tx htx⟩
  | none =>
    refine .inr ?_
    cases h : answerAt s 0 with
    | ok =>
      exact .inl ⟨rfl, rfl, by
        simp [callSignal, whenIdle_idle _ _ htx, signal_ok l s h, finishSignal_ok, returned, afterSignal]⟩
    | fail e left =>
      refine .inr ⟨e, left, rfl, rfl, ?_⟩
      rw [callSignal, whenIdle_idle _ _ htx, signal_fail l s e left h, finishSignal_fail,
        raise_ioError_idle _ _ (by simpa using htx)]
      rfl

/-! ### The encoder -/

/-- The encoder, all it can do: `DeviceRequired` for On and Off without a device, else a frame. -/
theorem encodeWith_cases (T : Tables) (h : House) (d : Option Device) (c : Command) :
    (c.deviceScoped = true ∧ d = none ∧ encodeWith T h d c = .error .deviceRequired) ∨
    (∃ dev, c.deviceScoped = true ∧ d = some dev ∧
      encodeWith T h d c = .ok (middleFrame (T.house h ||| highByte (T.device dev))
        (lowByte (T.device dev) ||| T.command c))) ∨
    (c.deviceScoped = false ∧ encodeWith T h d c = .ok (middleFrame (T.house h) (T.command c))) := by
  cases hc : c.deviceScoped with
  | true =>
    cases d with
    | none => exact .inl ⟨rfl, rfl, by simp [encodeWith, selectDeviceCode, hc]⟩
    | some dev =>
      exact .inr (.inl ⟨dev, rfl, rfl, by
        simp [encodeWith, selectDeviceCode, hc, middleFrame, houseByte, deviceCommandByte]⟩)
  | false =>
    exact .inr (.inr ⟨rfl, by
      simp [encodeWith, selectDeviceCode, hc, middleFrame, houseByte, deviceCommandByte, highByte, lowByte]⟩)

end Sys2Proof.Machine
end

