-- ==== Sys2Proof/Laws/Encoding.lean ====
section
/-! SUPPORT. The fields, the bytes and the layouts of a frame. -/

namespace Sys2Proof

/-! ### The fields are bijections (R96, R97, R102) -/

@[simp] theorem houseNibble_houseOfNibble (n : BitVec 4) : houseNibble (houseOfNibble n) = n := by
  revert n; decide

@[simp] theorem houseOfNibble_houseNibble (h : House) : houseOfNibble (houseNibble h) = h := by
  cases h <;> rfl

@[simp] theorem deviceIndex_deviceOfIndex (n : BitVec 4) : deviceIndex (deviceOfIndex n) = n := by
  revert n; decide

@[simp] theorem deviceOfIndex_deviceIndex (d : Device) : deviceOfIndex (deviceIndex d) = d := by
  cases d <;> rfl

/-! ### The five bytes of a frame (R9) -/

/-- Where the bits of the five bytes lie in the frame. -/
theorem getLsbD_frameOfBytes (b0 b1 b2 b3 b4 : Byte) {m : Nat} (hm : m < 8) :
    (frameOfBytes b0 b1 b2 b3 b4).getLsbD m = b4.getLsbD m ∧
    (frameOfBytes b0 b1 b2 b3 b4).getLsbD (8 + m) = b3.getLsbD m ∧
    (frameOfBytes b0 b1 b2 b3 b4).getLsbD (16 + m) = b2.getLsbD m ∧
    (frameOfBytes b0 b1 b2 b3 b4).getLsbD (24 + m) = b1.getLsbD m ∧
    (frameOfBytes b0 b1 b2 b3 b4).getLsbD (32 + m) = b0.getLsbD m := by
  simp only [frameOfBytes, BitVec.getLsbD_append]
  interval_cases m <;> simp only [Nat.reduceLT, Nat.reduceSub, Nat.reduceAdd, ↓reduceIte] <;> trivial

/-- A byte of a frame is the byte with those bits. -/
theorem frameByte_eq {F : Frame} {b : Byte} {j : Nat}
    (hb : ∀ m, m < 8 → F.getLsbD (32 - 8 * j + m) = b.getLsbD m) : frameByte F j = b := by
  apply BitVec.eq_of_getLsbD_eq
  intro m hm
  simp [frameByte, hm, hb m hm]

theorem frameByte_frameOfBytes (b0 b1 b2 b3 b4 : Byte) :
    frameByte (frameOfBytes b0 b1 b2 b3 b4) 0 = b0 ∧ frameByte (frameOfBytes b0 b1 b2 b3 b4) 1 = b1 ∧
    frameByte (frameOfBytes b0 b1 b2 b3 b4) 2 = b2 ∧ frameByte (frameOfBytes b0 b1 b2 b3 b4) 3 = b3 ∧
    frameByte (frameOfBytes b0 b1 b2 b3 b4) 4 = b4 :=
  ⟨frameByte_eq fun _ hm => (getLsbD_frameOfBytes b0 b1 b2 b3 b4 hm).2.2.2.2,
   frameByte_eq fun _ hm => (getLsbD_frameOfBytes b0 b1 b2 b3 b4 hm).2.2.2.1,
   frameByte_eq fun _ hm => (getLsbD_frameOfBytes b0 b1 b2 b3 b4 hm).2.2.1,
   frameByte_eq fun _ hm => (getLsbD_frameOfBytes b0 b1 b2 b3 b4 hm).2.1,
   frameByte_eq fun _ hm => by simpa using (getLsbD_frameOfBytes b0 b1 b2 b3 b4 hm).1⟩

/-- Splitting a frame made of five bytes gives the bytes back. -/
theorem frameBytes_frameOfBytes (b0 b1 b2 b3 b4 : Byte) :
    frameBytes (frameOfBytes b0 b1 b2 b3 b4) = [b0, b1, b2, b3, b4] := by
  obtain ⟨h0, h1, h2, h3, h4⟩ := frameByte_frameOfBytes b0 b1 b2 b3 b4
  simp [frameBytes, h0, h1, h2, h3, h4]

/-- Joining the five bytes of a frame gives the frame back. -/
theorem frameOfBytes_frameByte (F : Frame) :
    frameOfBytes (frameByte F 0) (frameByte F 1) (frameByte F 2) (frameByte F 3) (frameByte F 4) = F := by
  apply BitVec.eq_of_getLsbD_eq
  intro i hi
  have key : ∀ j m, m < 8 → (frameByte F j).getLsbD m = F.getLsbD (32 - 8 * j + m) := fun j m hm => by
    simp [frameByte, hm]
  have split := fun {m : Nat} (hm : m < 8) => getLsbD_frameOfBytes (frameByte F 0) (frameByte F 1) (frameByte F 2)
    (frameByte F 3) (frameByte F 4) hm
  by_cases h : i < 8
  · rw [(split h).1, key 4 _ h]; simp
  by_cases h8 : i < 16
  · obtain ⟨m, rfl⟩ : ∃ m, i = 8 + m := ⟨i - 8, by omega⟩
    rw [(split (m := m) (by omega)).2.1, key 3 _ (by omega)]
  by_cases h16 : i < 24
  · obtain ⟨m, rfl⟩ : ∃ m, i = 16 + m := ⟨i - 16, by omega⟩
    rw [(split (m := m) (by omega)).2.2.1, key 2 _ (by omega)]
  by_cases h24 : i < 32
  · obtain ⟨m, rfl⟩ : ∃ m, i = 24 + m := ⟨i - 24, by omega⟩
    rw [(split (m := m) (by omega)).2.2.2.1, key 1 _ (by omega)]
  · obtain ⟨m, rfl⟩ : ∃ m, i = 32 + m := ⟨i - 32, by omega⟩
    rw [(split (m := m) (by omega)).2.2.2.2, key 0 _ (by omega)]

/-! ### A frame that matches a row is the layout of its fields (R100, R101) -/

/-- Where the mask has a bit, a frame that matches has the bit of the pattern. -/
theorem getLsbD_of_matches {F mask pattern : Frame} (h : F &&& mask = pattern) {i : Nat}
    (hm : mask.getLsbD i = true) : F.getLsbD i = pattern.getLsbD i := by
  rw [← h]; simp [hm]

/-- The pattern of a device-scoped row: On, or Off with bit 13 set. -/
def devicePattern (off : BitVec 1) : Frame := if off = 1 then 0xD5AA0020AD else 0xD5AA0000AD

theorem deviceLayout_of_matches (F : Frame) (off : BitVec 1) (h : F &&& 0xFFFF0BA7FF = devicePattern off) :
    deviceLayout off (frameHouse F) (frameDevice F) = F := by
  apply BitVec.eq_of_getLsbD_eq
  intro i hi
  have H := fun hm => getLsbD_of_matches h (i := i) hm
  clear h
  simp only [deviceLayout, frameHouse, frameDevice, houseNibble_houseOfNibble, deviceIndex_deviceOfIndex,
    BitVec.getLsbD_append, BitVec.getLsbD_extractLsb']
  obtain rfl | rfl : off = 0 ∨ off = 1 := by clear H; revert off; decide
  all_goals
    interval_cases i <;>
      simp only [Nat.reduceLT, Nat.reduceSub, Nat.reduceAdd, ↓reduceIte, decide_true, Bool.true_and] <;>
      first | rfl | exact (H rfl).symm

theorem houseLayout_of_matches (F : Frame) (code : Byte)
    (hc : code ∈ ([0x98, 0x88, 0x91, 0x80, 0x94, 0x84] : List Byte))
    (h : F &&& 0xFFFF0FFFFF = Machine.middleFrame 0 code) : houseLayout code (frameHouse F) = F := by
  apply BitVec.eq_of_getLsbD_eq
  intro i hi
  have H := fun hm => getLsbD_of_matches h (i := i) hm
  clear h
  simp only [houseLayout, frameHouse, houseNibble_houseOfNibble, BitVec.getLsbD_append,
    BitVec.getLsbD_extractLsb']
  simp only [List.mem_cons, List.not_mem_nil, or_false] at hc
  rcases hc with rfl | rfl | rfl | rfl | rfl | rfl
  all_goals
    interval_cases i <;>
      simp only [Nat.reduceLT, Nat.reduceSub, Nat.reduceAdd, ↓reduceIte, decide_true, Bool.true_and] <;>
      first | rfl | exact (H rfl).symm

/-- A frame that decodes matches a row of the opcode map, and the instruction is that row's. -/
theorem decodeFrame_ok {F : Frame} {i : Instr} (h : decodeFrame F = .ok i) :
    ∃ r, r ∈ opcodeMap ∧ r.matchesFrame F = true ∧ i = rowInstr r.command F := by
  unfold decodeFrame at h
  split at h
  · rename_i r hr
    cases h
    exact ⟨r, List.mem_of_find?_eq_some hr, by simpa using List.find?_some hr, rfl⟩
  · cases h

/-- A frame that matches a row decodes. -/
theorem decodeFrame_of_matches {F : Frame} {r : OpRow} (hr : r ∈ opcodeMap) (hm : r.matchesFrame F = true) :
    ∃ i, decodeFrame F = .ok i := by
  unfold decodeFrame
  cases h : opcodeMap.find? (·.matchesFrame F) with
  | some r' => exact ⟨_, rfl⟩
  | none => exact absurd hm (by simpa using List.find?_eq_none.mp h r hr)

end Sys2Proof
end

