-- ==== Sys2Proof/Laws/Sequencer.lean ====
section
/-! SUPPORT. The schedule and the sequencer's step: what an entry is, and everything a step of a transmission can
do. -/

namespace Sys2Proof.Machine

/-! ### The schedule -/

/-- The entry at sub-step `j` of bit number `k` (R35). -/
theorem entry_bit (F : Frame) {k j : Nat} (hk : k < 40) (hj : j < 4) :
    entry (5 + 4 * k + j) F = some (bitEntry F k j) := by
  have h : (5 + 4 * k + j - 5) / 4 = k := by omega
  have h' : (5 + 4 * k + j - 5) % 4 = j := by omega
  simp [entry, h, h', show 5 + 4 * k + j ≠ 1 by omega,
    show 5 + 4 * k + j ≠ 2 by omega, show 5 + 4 * k + j ≠ 3 by omega, show 5 + 4 * k + j ≠ 4 by omega,
    show 5 + 4 * k + j < 165 by omega]

/-- An index of the bit window is a bit number and a sub-step (R35). -/
theorem bit_window {i : Nat} (h : 5 ≤ i) (h' : i < 165) : ∃ k j, k < 40 ∧ j < 4 ∧ i = 5 + 4 * k + j :=
  ⟨(i - 5) / 4, (i - 5) % 4, by omega, by omega, by omega⟩

/-- There is an entry exactly for the indexes below 168 (R203). -/
theorem entry_isSome (i : Nat) (F : Frame) : (entry i F).isSome = decide (i < 168) := by
  unfold entry
  repeat' split
  all_goals simp <;> omega

/-- Where the schedule writes, and what (R203): the four groups of write entries. -/
theorem entry_write_cases {i : Nat} {F : Frame} {l : Line} (h : entry i F = some (.write l)) :
    (i = 0 ∧ l = resetLine) ∨ (i = 2 ∧ l = standbyLine) ∨
    (∃ k, k < 40 ∧ i = 5 + 4 * k ∧ l = bitLine (wireBit F k)) ∨
    (∃ k, k < 40 ∧ i = 7 + 4 * k ∧ l = standbyLine) ∨ (i = 166 ∧ l = resetLine) := by
  by_cases hb : 5 ≤ i ∧ i < 165
  · obtain ⟨k, j, hk, hj, rfl⟩ := bit_window hb.1 hb.2
    rw [entry_bit F hk hj] at h
    have : j = 0 ∨ j = 1 ∨ j = 2 ∨ j = 3 := by omega
    rcases this with rfl | rfl | rfl | rfl <;> simp [bitEntry] at h
    · exact .inr (.inr (.inl ⟨k, hk, rfl, h.symm⟩))
    · exact .inr (.inr (.inr (.inl ⟨k, hk, by omega, h.symm⟩)))
  · unfold entry at h
    repeat' split at h
    all_goals first
      | (simp at h; done)
      | (simp at h; subst h; simp_all; done)
      | (exfalso; omega)

/-! ### Traces of the schedule -/

theorem scheduleTrace_zero (F : Frame) : scheduleTrace F 0 = [] := rfl

/-- One entry further, one event more. -/
theorem scheduleTrace_succ (F : Frame) (i : Nat) (en : Entry) (h : entry i F = some en) :
    scheduleTrace F (i + 1) = scheduleTrace F i ++ [en.event] := by
  simp [scheduleTrace, List.range_succ, h]

theorem lastWrite_succ_write (F : Frame) (i : Nat) (l : Line) (h : entry i F = some (.write l)) :
    lastWrite F (i + 1) = some l := by
  simp [lastWrite, h]

theorem lastWrite_succ_wait (F : Frame) (i : Nat) (k : DelayKind) (h : entry i F = some (.wait k)) :
    lastWrite F (i + 1) = lastWrite F i := by
  simp [lastWrite, h]

theorem writesBelow_succ_write (F : Frame) (i : Nat) (l : Line) (h : entry i F = some (.write l)) :
    writesBelow F (i + 1) = writesBelow F i + 1 := by
  simp [writesBelow, List.range_succ, h, show Entry.isWrite (.write l) = true from rfl]

theorem writesBelow_succ_wait (F : Frame) (i : Nat) (k : DelayKind) (h : entry i F = some (.wait k)) :
    writesBelow F (i + 1) = writesBelow F i := by
  simp [writesBelow, List.range_succ, h, show Entry.isWrite (.wait k) = false from rfl]

/-! ### The step -/

theorem step_running (s : State) (tx : Transmission) (h : s.tx = some tx) : step s = stepTransmission tx s := by
  simp [step, h]

theorem step_idle (s : State) (h : s.tx = none) : step s = stepIdle s := by
  simp [step, h]

/-- A step of a transmission, all it can do: an ended run returns; a delay elapses; a line write succeeds; a line
write fails; a position that does not exist faults. -/
theorem stepTransmission_cases (tx : Transmission) (s : State) (hs : s.tx = some tx) :
    ((tx.err ≠ none ∨ tx.spc = 168) ∧ stepTransmission tx s = .next (finishRun tx s)) ∨
    (tx.err = none ∧ ∃ k, entry tx.spc tx.fr = some (.wait k) ∧
      stepTransmission tx s = .next (advance tx (delay k s))) ∨
    (tx.err = none ∧ ∃ l, entry tx.spc tx.fr = some (.write l) ∧ answerAt s 0 = .ok ∧
      stepTransmission tx s = .next (advance tx
        { s with line := l, trace := s.trace ++ [.wrote l], answers := s.answers.tail, asked := s.asked + 1 })) ∨
    (tx.err = none ∧ ∃ l e left, entry tx.spc tx.fr = some (.write l) ∧ answerAt s 0 = .fail e left ∧
      stepTransmission tx s = .next
        { s with
          tx := some { tx with err := some e }, dongle := .unknown, line := left,
          trace := s.trace ++ [.failed l e], answers := s.answers.tail, asked := s.asked + 1 }) ∨
    (tx.err = none ∧ 168 < tx.spc ∧ stepTransmission tx s = .fault .spcOutOfRange) := by
  cases he : tx.err with
  | some e => exact .inl ⟨.inl (by simp), by simp [stepTransmission, he]⟩
  | none =>
    cases hen : entry tx.spc tx.fr with
    | none =>
      have hge : ¬ tx.spc < 168 := by
        have := entry_isSome tx.spc tx.fr
        rw [hen] at this
        simpa using this
      by_cases h168 : tx.spc = 168
      · exact .inl ⟨.inr h168, by simp only [stepTransmission, he, hen, if_pos h168]⟩
      · exact .inr (.inr (.inr (.inr ⟨rfl, by omega, by simp [stepTransmission, he, hen, h168]⟩)))
    | some en =>
      cases en with
      | wait k => exact .inr (.inl ⟨rfl, k, rfl, by simp [stepTransmission, he, hen, runEntry]⟩)
      | write l =>
        obtain ⟨ha, hw⟩ | ⟨e, left, ha, hw⟩ := lineWrite_cases l s
        · exact .inr (.inr (.inl ⟨rfl, l, rfl, ha, by simp [stepTransmission, he, hen, runEntry, hw]⟩))
        · refine .inr (.inr (.inr (.inl ⟨rfl, l, e, left, rfl, ha, ?_⟩)))
          simp only [stepTransmission, he, hen, runEntry, hw]
          rw [raise_ioError_running e _ tx (by simpa using hs)]

/-! ### Iterating the step -/

theorem steps_zero (s : State) : steps 0 s = .next s := rfl

theorem steps_succ (n : Nat) (s t : State) (h : step s = .next t) : steps (n + 1) s = steps n t := by
  simp [steps, h]

/-- `steps` is the host's run of the machine. -/
theorem steps_eq_core_run (n : Nat) : ∀ s : State, steps n s = Host.Core.run core n s := by
  induction n with
  | zero => intro s; rfl
  | succ n ih =>
    intro s
    simp only [steps, Host.Core.run, core]
    cases step s with
    | next t => exact ih t
    | fault r => rfl
    | refused r => rfl

end Sys2Proof.Machine
end

