-- ==== Sys2Proof/Laws/Instr.lean ====
section
/-! SUPPORT. Everything an instruction, and the taking of the caller's next operation, can do. -/

namespace Sys2Proof.Machine

/-- The commands of family CMD as one: `exec` hands the encoder's answer to the caller. -/
theorem exec_ofCommand (h : House) (d : Option Device) (c : Command) (s : State) :
    exec (Instr.ofCommand h d c) s = .next (returnEncoding h d c s) := by
  cases c <;> rfl

/-- The encoder's answer, whichever it is, changes nothing but the result. -/
theorem returnEncodingWith_eq (T : Tables) (h : House) (d : Option Device) (c : Command) (s : State) :
    returnEncodingWith T h d c s = match encodeWith T h d c with
      | .ok F => returned (.frame F) s
      | .error e => returned (.err e) s := by
  unfold returnEncodingWith
  obtain ⟨-, -, e⟩ | ⟨dev, -, -, e⟩ | ⟨-, e⟩ := encodeWith_cases T h d c
  all_goals
    rw [e]
    rfl

theorem returnEncoding_eq (h : House) (d : Option Device) (c : Command) (s : State) :
    returnEncoding h d c s = match encodeCommand h d c with
      | .ok F => returned (.frame F) s
      | .error e => returned (.err e) s :=
  returnEncodingWith_eq specTables h d c s

/-- An instruction, all it can do: hand a result to its caller and change nothing else; be refused because a
transmission is in progress; or be a signal whose write succeeds or fails. -/
theorem exec_cases (i : Instr) (s : State) :
    (∃ r, exec i s = .next (returned r s)) ∨
    (∃ tx, s.tx = some tx ∧ exec i s = .refused .handleBusy) ∨
    (∃ l, s.tx = none ∧ answerAt s 0 = .ok ∧ exec i s = .next (afterSignal l s)) ∨
    (∃ l e left, s.tx = none ∧ answerAt s 0 = .fail e left ∧ exec i s = .next (afterFailedSignal l e left s)) := by
  have cmd : ∀ h d c, ∃ r, returnEncoding h d c s = returned r s := fun h d c => by
    rw [returnEncoding_eq]
    cases encodeCommand h d c with
    | ok F => exact ⟨_, rfl⟩
    | error e => exact ⟨_, rfl⟩
  have sig : ∀ l, (∃ tx, s.tx = some tx ∧ callSignal l s = .refused .handleBusy) ∨
      (∃ l', s.tx = none ∧ answerAt s 0 = .ok ∧ callSignal l s = .next (afterSignal l' s)) ∨
      (∃ l' e left, s.tx = none ∧ answerAt s 0 = .fail e left ∧
        callSignal l s = .next (afterFailedSignal l' e left s)) := fun l => by
    obtain h | h | ⟨e, left, h⟩ := callSignal_cases l s
    · exact .inl h
    · exact .inr (.inl ⟨l, h⟩)
    · exact .inr (.inr ⟨l, e, left, h⟩)
  cases i with
  | turnOn h d => obtain ⟨r, e⟩ := cmd h d .turnOn; exact .inl ⟨r, congrArg _ e⟩
  | turnOff h d => obtain ⟨r, e⟩ := cmd h d .turnOff; exact .inl ⟨r, congrArg _ e⟩
  | dim h d => obtain ⟨r, e⟩ := cmd h d .dim; exact .inl ⟨r, congrArg _ e⟩
  | bright h d => obtain ⟨r, e⟩ := cmd h d .bright; exact .inl ⟨r, congrArg _ e⟩
  | allOn h d => obtain ⟨r, e⟩ := cmd h d .allOn; exact .inl ⟨r, congrArg _ e⟩
  | allOff h d => obtain ⟨r, e⟩ := cmd h d .allOff; exact .inl ⟨r, congrArg _ e⟩
  | lampsOn h d => obtain ⟨r, e⟩ := cmd h d .lampsOn; exact .inl ⟨r, congrArg _ e⟩
  | lampsOff h d => obtain ⟨r, e⟩ := cmd h d .lampsOff; exact .inl ⟨r, congrArg _ e⟩
  | reset => exact .inr (sig resetLine)
  | bit0 => exact .inr (sig (bitLine false))
  | bit1 => exact .inr (sig (bitLine true))
  | standby => exact .inr (sig standbyLine)

/-- The composites of signals neither start nor end a transmission, and touch neither the dongle nor the result. -/
theorem sendBits_frame (bs : List Bool) : ∀ s : State,
    (sendBits bs s).1.tx = s.tx ∧ (sendBits bs s).1.dongle = s.dongle ∧ (sendBits bs s).1.result = s.result ∧
      (sendBits bs s).1.ops = s.ops := by
  have sig : ∀ (l : Line) (s : State), (signal l s).1.tx = s.tx ∧ (signal l s).1.dongle = s.dongle ∧
      (signal l s).1.result = s.result ∧ (signal l s).1.ops = s.ops := fun l s => by
    obtain ⟨h, -⟩ | ⟨e, left, h, -⟩ := lineWrite_cases l s
    · simp [signal_ok l s h]
    · simp [signal_fail l s e left h]
  have bit : ∀ (b : Bool) (s : State), (sendBit b s).1.tx = s.tx ∧ (sendBit b s).1.dongle = s.dongle ∧
      (sendBit b s).1.result = s.result ∧ (sendBit b s).1.ops = s.ops := fun b s => by
    have h1 := sig (bitLine b) s
    unfold sendBit
    split
    · rename_i s' hs
      have h2 := sig standbyLine s'
      simp only [hs] at h1
      exact ⟨h2.1.trans h1.1, h2.2.1.trans h1.2.1, h2.2.2.1.trans h1.2.2.1, h2.2.2.2.trans h1.2.2.2⟩
    · rename_i s' e hs
      simpa only [hs] using h1
  induction bs with
  | nil => intro s; exact ⟨rfl, rfl, rfl, rfl⟩
  | cons b bs ih =>
    intro s
    have h1 := bit b s
    unfold sendBits
    split
    · rename_i s' hs
      have h2 := ih s'
      simp only [hs] at h1
      exact ⟨h2.1.trans h1.1, h2.2.1.trans h1.2.1, h2.2.2.1.trans h1.2.2.1, h2.2.2.2.trans h1.2.2.2⟩
    · rename_i s' e hs
      simpa only [hs] using h1

end Sys2Proof.Machine
end

