-- ==== Sys2Proof/Laws/OpenTables.lean ====
section
/-! SUPPORT. The machine over open tables: its inputs, its decoder, its instructions. -/

namespace Sys2Proof.Machine

theorem mem_allHouses (h : House) : h ∈ allHouses := by cases h <;> decide

theorem mem_allDevices (d : Device) : d ∈ allDevices := by cases d <;> decide

theorem mem_allCommands (c : Command) : c ∈ allCommands := by cases c <;> decide

theorem mem_normalDevices (d : Option Device) (c : Command) : d ∈ normalDevices c ↔ Normalised d c := by
  cases hc : c.deviceScoped <;> cases d <;> simp [normalDevices, Normalised, hc, mem_allDevices]

/-- The list of inputs holds exactly the normalised ones (R110). -/
theorem mem_normalInputs (x : Inputs) : x ∈ normalInputs ↔ Normalised x.device x.command := by
  simp only [normalInputs, List.mem_flatMap, List.mem_map]
  constructor
  · rintro ⟨c, -, d, hd, h, -, rfl⟩
    exact (mem_normalDevices d c).mp hd
  · exact fun hx => ⟨x.command, mem_allCommands _, x.device, (mem_normalDevices _ _).mpr hx, x.house,
      mem_allHouses _, rfl⟩

theorem givesFrame_iff (x : Inputs) (T : Tables) (F : Frame) :
    x.givesFrame T F = true ↔ encodeWith T x.house x.device x.command = .ok F := by
  unfold Inputs.givesFrame
  cases encodeWith T x.house x.device x.command <;> simp

/-- Decoding over any tables, all it can do: inputs that encode to the frame, or a refusal of a frame that no
normalised input encodes to. -/
theorem decodeFrameWith_cases (T : Tables) (F : Frame) :
    (∃ x : Inputs, Normalised x.device x.command ∧ encodeWith T x.house x.device x.command = .ok F ∧
      decodeFrameWith T F = .ok (Instr.ofCommand x.house x.device x.command)) ∨
    ((∀ x : Inputs, Normalised x.device x.command → encodeWith T x.house x.device x.command ≠ .ok F) ∧
      decodeFrameWith T F = .error (frameRefusal F)) := by
  unfold decodeFrameWith
  cases h : normalInputs.find? (·.givesFrame T F) with
  | some x =>
    exact .inl ⟨x, (mem_normalInputs x).mp (List.mem_of_find?_eq_some h),
      (givesFrame_iff x T F).mp (by simpa using List.find?_some h), rfl⟩
  | none =>
    exact .inr ⟨fun x hx hF => List.find?_eq_none.mp h x ((mem_normalInputs x).mpr hx)
      ((givesFrame_iff x T F).mpr hF), rfl⟩

/-- The commands of family CMD as one, over any tables. -/
theorem execWith_ofCommand (T : Tables) (h : House) (d : Option Device) (c : Command) (s : State) :
    execWith T (Instr.ofCommand h d c) s = .next (returnEncodingWith T h d c s) := by
  cases c <;> rfl

end Sys2Proof.Machine
end

