-- ==== Sys2Proof/Laws/PerInstr.lean ====
section
/-! SUPPORT. A statement about every instruction as data, one lemma per constructor: the shape of its word. -/

namespace Sys2Proof.Laws.WordShape

/-- The word of an instruction has the form of its format: a frame is five bytes that begin `D5 AA` and end `AD`
(30_encoding.md R90, R91), a line word is one byte that holds two bits (R104). -/
def Statement (i : Instr) : Prop :=
  match i with
  | .reset | .bit0 | .bit1 | .standby => ∃ v : BitVec 2, encode i = some [v.setWidth 8]
  | .turnOn _ _ | .turnOff _ _ | .dim _ _ | .bright _ _ | .allOn _ _ | .allOff _ _ | .lampsOn _ _ | .lampsOff _ _ =>
    ∀ bs, encode i = some bs → ∃ b2 b3, bs = [0xD5, 0xAA, b2, b3, 0xAD]

/-- A device-scoped layout has the shape of a frame. -/
theorem deviceLayout_shape (off : BitVec 1) (h : House) (d : Device) :
    ∃ b2 b3, frameBytes (deviceLayout off h d) = [0xD5, 0xAA, b2, b3, 0xAD] := by
  refine ⟨frameByte (deviceLayout off h d) 2, frameByte (deviceLayout off h d) 3, ?_⟩
  obtain rfl | rfl : off = 0 ∨ off = 1 := by revert off; decide
  all_goals cases h <;> cases d <;> rfl

/-- The six house-scoped command codes (R98). -/
def houseCodes : List Byte := [0x98, 0x88, 0x91, 0x80, 0x94, 0x84]

/-- A house-scoped layout has the shape of a frame. -/
theorem houseLayout_shape (code : Byte) (hc : code ∈ houseCodes) (h : House) :
    ∃ b2 b3, frameBytes (houseLayout code h) = [0xD5, 0xAA, b2, b3, 0xAD] := by
  refine ⟨frameByte (houseLayout code h) 2, frameByte (houseLayout code h) 3, ?_⟩
  simp only [houseCodes, List.mem_cons, List.not_mem_nil, or_false] at hc
  rcases hc with rfl | rfl | rfl | rfl | rfl | rfl
  all_goals cases h <;> rfl

theorem turnOn (h : House) (d : Option Device) : Statement (.turnOn h d) := fun bs hb => by
  cases d with
  | none => cases hb
  | some d => cases hb; exact deviceLayout_shape 0 h d

theorem turnOff (h : House) (d : Option Device) : Statement (.turnOff h d) := fun bs hb => by
  cases d with
  | none => cases hb
  | some d => cases hb; exact deviceLayout_shape 1 h d

theorem dim (h : House) (d : Option Device) : Statement (.dim h d) := fun bs hb => by
  cases d with
  | none => cases hb; exact houseLayout_shape _ (by decide) h
  | some d => cases hb

theorem bright (h : House) (d : Option Device) : Statement (.bright h d) := fun bs hb => by
  cases d with
  | none => cases hb; exact houseLayout_shape _ (by decide) h
  | some d => cases hb

theorem allOn (h : House) (d : Option Device) : Statement (.allOn h d) := fun bs hb => by
  cases d with
  | none => cases hb; exact houseLayout_shape _ (by decide) h
  | some d => cases hb

theorem allOff (h : House) (d : Option Device) : Statement (.allOff h d) := fun bs hb => by
  cases d with
  | none => cases hb; exact houseLayout_shape _ (by decide) h
  | some d => cases hb

theorem lampsOn (h : House) (d : Option Device) : Statement (.lampsOn h d) := fun bs hb => by
  cases d with
  | none => cases hb; exact houseLayout_shape _ (by decide) h
  | some d => cases hb

theorem lampsOff (h : House) (d : Option Device) : Statement (.lampsOff h d) := fun bs hb => by
  cases d with
  | none => cases hb; exact houseLayout_shape _ (by decide) h
  | some d => cases hb

theorem reset : Statement .reset := ⟨0b00, rfl⟩

theorem bit0 : Statement .bit0 := ⟨0b01, rfl⟩

theorem bit1 : Statement .bit1 := ⟨0b10, rfl⟩

theorem standby : Statement .standby := ⟨0b11, rfl⟩

end Sys2Proof.Laws.WordShape
end

