-- ==== Sys2Proof/Laws/Transmission.lean ====
section
/-! SUPPORT. A transmission while no write fails: where it stands after each entry, and the trace it makes. -/

namespace Sys2Proof.Machine

/-- Running `m` steps and then `n` steps. -/
theorem steps_add (m n : Nat) : ∀ s t : State, steps m s = .next t → steps (m + n) s = steps n t := by
  induction m with
  | zero => intro s t h; simp only [steps, Host.Outcome.next.injEq] at h; simp [h]
  | succ m ih =>
    intro s t h
    rw [show m + 1 + n = (m + n) + 1 by omega]
    simp only [steps] at h ⊢
    cases hs : step s with
    | next u => rw [hs] at h; exact ih u t h
    | fault r => rw [hs] at h; cases h
    | refused r => rw [hs] at h; cases h

/-- A list of good answers is a driver that fails no write. -/
theorem noWriteFails_of_replicate (n : Nat) (s : State) (h : s.answers = List.replicate n .ok) :
    NoWriteFails n s := fun k hk => by
  simp [answerAt, h, hk]

/-- A transmission of `F` begun in `s`, after the entries below `i` have succeeded. -/
def midRun (F : Frame) (s : State) (i : Nat) : State where
  tx := some ⟨F, i, none⟩
  line := (lastWrite F i).getD s.line
  dongle := if i = 168 then .idle else s.dongle
  trace := scheduleTrace F i
  result := none
  ops := s.ops
  answers := s.answers.drop (writesBelow F i)
  asked := s.asked + writesBelow F i

theorem answerAt_midRun (F : Frame) (s : State) (i k : Nat) :
    answerAt (midRun F s i) k = answerAt s (writesBelow F i + k) := by
  simp [answerAt, midRun, Nat.add_assoc]

theorem writesBelow_le_succ (F : Frame) (i : Nat) : writesBelow F i ≤ writesBelow F (i + 1) := by
  simp [writesBelow, List.range_succ]

/-- Where a transmission stands after `i` steps, when none of its writes so far fails. -/
theorem steps_startRun (F : Frame) (s : State) : ∀ i, i ≤ 168 → NoWriteFails (writesBelow F i) s →
    steps i (startRun F s) = .next (midRun F s i) := by
  intro i
  induction i with
  | zero => intro _ _; simp [steps, startRun, midRun, lastWrite, scheduleTrace, writesBelow]
  | succ i ih =>
    intro hi hn
    have h0 := ih (by omega) (fun k hk => hn k (Nat.lt_of_lt_of_le hk (writesBelow_le_succ F i)))
    rw [steps_add i 1 _ _ h0]
    have hsome := entry_isSome i F
    rw [show decide (i < 168) = true by simp; omega] at hsome
    obtain ⟨en, hen⟩ := Option.isSome_iff_exists.mp hsome
    have h168 : i ≠ 168 := by omega
    have hstep : step (midRun F s i) = stepTransmission ⟨F, i, none⟩ (midRun F s i) := step_running _ _ rfl
    cases en with
    | wait k =>
      simp only [steps, hstep, stepTransmission, hen, runEntry]
      simp [midRun, advance, delay, scheduleTrace_succ F i _ hen, lastWrite_succ_wait F i _ hen,
        writesBelow_succ_wait F i _ hen, Entry.event, h168]
    | write l =>
      have hw := writesBelow_succ_write F i _ hen
      have ha : answerAt (midRun F s i) 0 = .ok := by rw [answerAt_midRun]; exact hn _ (by omega)
      simp only [steps, hstep, stepTransmission, hen, runEntry, lineWrite_ok l _ ha]
      simp [midRun, advance, scheduleTrace_succ F i _ hen, lastWrite_succ_write F i _ hen, hw, Entry.event, h168,
        Nat.add_assoc]

/-- The trace up to bit number `k`: the arm sequence, then the `SENDBIT`s of the bits below `k` (R180, R214). -/
theorem scheduleTrace_bits (F : Frame) : ∀ k, k ≤ 40 → scheduleTrace F (5 + 4 * k) =
    [.wrote resetLine, .settled, .wrote standbyLine, .settled, .commandWaited] ++
      ((List.range k).map (wireBit F)).flatMap bitEvents := by
  intro k
  induction k with
  | zero => intro _; rfl
  | succ k ih =>
    intro hk
    have e (j) (hj : j < 4) := entry_bit F (k := k) (j := j) (by omega) hj
    rw [show 5 + 4 * (k + 1) = 5 + 4 * k + 3 + 1 by omega, scheduleTrace_succ F _ _ (e 3 (by omega)),
      scheduleTrace_succ F _ _ (e 2 (by omega)), scheduleTrace_succ F _ _ (e 1 (by omega)),
      scheduleTrace_succ F _ _ (e 0 (by omega)), Nat.add_zero, ih (by omega)]
    simp [List.range_succ, bitEntry, bitEvents, Entry.event, DelayKind.event]

/-- The lines that a sequence of `SENDBIT`s writes. -/
theorem writtenLines_bitEvents (bs : List Bool) :
    writtenLines (bs.flatMap bitEvents) = bs.flatMap fun b => [bitLine b, standbyLine] := by
  induction bs with
  | nil => rfl
  | cons b bs ih => simp only [List.flatMap_cons, writtenLines] at ih ⊢; simp [bitEvents, ih]

theorem writtenLines_append (t u : List Event) : writtenLines (t ++ u) = writtenLines t ++ writtenLines u := by
  simp [writtenLines]

theorem lineBit_bitLine (b : Bool) : lineBit (bitLine b) = some b := by
  cases b <;> rfl

/-- The dongle's reading takes the bits off one by one. -/
theorem rxTail_bits (bs : List Bool) (rest : List Line) :
    rxTail ((bs.flatMap fun b => [bitLine b, standbyLine]) ++ rest) =
      (rxTail rest).map fun r => (bs ++ r.1, r.2) := by
  induction bs with
  | nil => cases h : rxTail rest <;> simp [h]
  | cons b bs ih =>
    simp only [List.flatMap_cons, List.cons_append, List.nil_append, rxTail, lineBit_bitLine, ih, if_true]
    cases rxTail rest <;> rfl

end Sys2Proof.Machine
end

