-- ==== Sys2Proof/Tests/Slice0.lean ====
section
/-! SUPPORT. Small tests, with expected values from the spec's own vectors (95_test_vectors.md, 96_frame_table.md),
and a witness for the hypotheses of every statement that has any. -/

namespace Sys2Proof.Tests

open Sys2Proof Sys2Proof.Machine

/-! ### Helpers -/

/-- An idle machine with both lines asserted and a driver that will give the listed answers. -/
def quiet (answers : List IoAnswer) : State :=
  ⟨none, ⟨true, true⟩, .idle, [], none, [], answers, 0⟩

/-- A transmission of `F` at position `spc`, with the trace and the lines such a run has. -/
def running (F : Frame) (spc : Nat) (answers : List IoAnswer) : State :=
  ⟨some ⟨F, spc, none⟩, (lastWrite F spc).getD ⟨true, false⟩, if spc = 168 then .idle else .unknown,
    scheduleTrace F spc, none, [], answers, 0⟩

theorem running_line {F : Frame} {spc : Nat} {l : Line} (answers : List IoAnswer) (h : lastWrite F spc = some l) :
    (running F spc answers).line = l := by
  simp [running, h]

/-- The same transmission after its write at `spc` has failed. -/
def aborted (F : Frame) (spc : Nat) (l : Line) (e : IoError) : State :=
  ⟨some ⟨F, spc, some e⟩, ⟨true, false⟩, .unknown, scheduleTrace F spc ++ [.failed l e], none, [], [], 0⟩

/-- One reading of the state a step gives. -/
def seen {α : Type} (f : State → α) (o : Host.Outcome State Fault Refusal) : Option α :=
  match o with
  | .next t => some (f t)
  | .fault _ => none
  | .refused _ => none

/-- The refusal of a step that refuses. -/
def refusal (o : Host.Outcome State Fault Refusal) : Option Refusal :=
  match o with
  | .next _ => none
  | .fault _ => none
  | .refused r => some r

/-- Whether bytes decode to an instruction. -/
def decodesTo (bytes : List Byte) (i : Instr) : Bool :=
  match decode bytes with
  | .ok j => j == i
  | .error _ => false

/-- Whether bytes are refused for a reason. -/
def refusedFor (bytes : List Byte) (why : DecodeError) : Bool :=
  match decode bytes with
  | .ok _ => false
  | .error e => e == why

/-- `F9 ON`, source vector S5a. -/
def f9On : Frame := 0xD5AA9400AD

/-! ### Well-formedness: an ill-formed term for each check -/

theorem test_wellFormed_device_missing : (Instr.turnOff .C none).deviceGiven = false := by decide
theorem test_wellFormed_device_extra : (Instr.dim .D (some .d16)).deviceAbsent = false := by decide
theorem test_wellFormed_both :
    (Instr.turnOn .A none).wellFormed = false ∧ (Instr.allOn .O (some .d9)).wellFormed = false ∧
      (Instr.turnOn .F (some .d9)).wellFormed = true ∧ (Instr.allOn .O none).wellFormed = true ∧
      Instr.reset.wellFormed = true := by decide

/-! ### Decoding: a word of every constructor, written out from the layouts of R100 and R104 -/

theorem test_decode_on : decodesTo [0b11010101, 0b10101010, 0b10010100, 0b00000000, 0b10101101] (.turnOn .F (some .d9)) := by
  decide
theorem test_decode_on_a15 : decodesTo [0xD5, 0xAA, 0x64, 0x48, 0xAD] (.turnOn .A (some .d15)) := by decide
theorem test_decode_off : decodesTo [0b11010101, 0b10101010, 0b00110100, 0b01111000, 0b10101101] (.turnOff .P (some .d16)) := by
  decide
theorem test_decode_off_e13 : decodesTo [0xD5, 0xAA, 0x84, 0x60, 0xAD] (.turnOff .E (some .d13)) := by decide
theorem test_decode_dim : decodesTo [0b11010101, 0b10101010, 0b01010000, 0b10011000, 0b10101101] (.dim .D none) := by decide
theorem test_decode_bright : decodesTo [0b11010101, 0b10101010, 0b01100000, 0b10001000, 0b10101101] (.bright .A none) := by
  decide
theorem test_decode_allOn : decodesTo [0b11010101, 0b10101010, 0b00100000, 0b10010001, 0b10101101] (.allOn .O none) := by decide
theorem test_decode_allOff : decodesTo [0b11010101, 0b10101010, 0b00000000, 0b10000000, 0b10101101] (.allOff .M none) := by
  decide
theorem test_decode_lampsOn : decodesTo [0b11010101, 0b10101010, 0b11110000, 0b10010100, 0b10101101] (.lampsOn .J none) := by
  decide
theorem test_decode_lampsOff : decodesTo [0b11010101, 0b10101010, 0b00100000, 0b10000100, 0b10101101] (.lampsOff .O none) := by
  decide
theorem test_decode_signals :
    decodesTo [0b00] .reset ∧ decodesTo [0b01] .bit0 ∧ decodesTo [0b10] .bit1 ∧ decodesTo [0b11] .standby := by decide

/-- Vector V5: the frames that are none of the 608. -/
theorem test_decode_refusals :
    refusedFor [0xD5, 0xAA, 0x54, 0x98, 0xAD] .noRow ∧ refusedFor [0xD5, 0xAA, 0x60, 0x01, 0xAD] .noRow ∧
      refusedFor [0xD5, 0xAA, 0x68, 0x90, 0xAD] .noRow ∧ refusedFor [0xD5, 0xAA, 0x60, 0x99, 0xAD] .noRow ∧
      refusedFor [0xD5, 0xAA, 0x60, 0xD8, 0xAD] .noRow ∧ refusedFor [0xD4, 0xAA, 0x60, 0x00, 0xAD] .wrongHeader ∧
      refusedFor [0xD5, 0xAA, 0x60, 0x00, 0xAC] .wrongFooter ∧ refusedFor [0, 0, 0, 0, 0] .wrongHeader ∧
      refusedFor [0xFF, 0xFF, 0xFF, 0xFF, 0xFF] .wrongHeader ∧ refusedFor [0b100] .badLineByte ∧
      refusedFor [0xD5, 0xAA] .badLength := by decide

/-- The table's numbering: the row's `match` value is the word. -/
theorem test_decodeTableWord :
    decodeTableWord 40 0xD5AA0020AD = some (.turnOff .M (some .d1)) ∧ decodeTableWord 8 2 = some .bit1 ∧
      decodeTableWord 2 3 = some .standby ∧ decodeTableWord 8 4 = none ∧ decodeTableWord 16 0xD5AA = none := by decide

/-! ### Family CMD, from the spec's worked examples -/

theorem test_on_f9 : seen State.result (exec (.turnOn .F (some .d9)) (quiet [])) = some (some (.frame 0xD5AA9400AD)) := by
  decide
theorem test_on_no_device : seen State.result (exec (.turnOn .A none) (quiet [])) = some (some (.err .deviceRequired)) := by
  decide
theorem test_off_c3 : seen State.result (exec (.turnOff .C (some .d3)) (quiet [])) = some (some (.frame 0xD5AA4028AD)) := by
  decide
theorem test_off_no_device : seen State.result (exec (.turnOff .P none) (quiet [])) = some (some (.err .deviceRequired)) := by
  decide
theorem test_dim_d16 : seen State.result (exec (.dim .D (some .d16)) (quiet [])) = some (some (.frame 0xD5AA5098AD)) := by
  decide
theorem test_bright_j16 : seen State.result (exec (.bright .J (some .d16)) (quiet [])) = some (some (.frame 0xD5AAF088AD)) := by
  decide
theorem test_allOn_o2 : seen State.result (exec (.allOn .O (some .d2)) (quiet [])) = some (some (.frame 0xD5AA2091AD)) := by
  decide
theorem test_allOff_a4 : seen State.result (exec (.allOff .A (some .d4)) (quiet [])) = some (some (.frame 0xD5AA6080AD)) := by
  decide
theorem test_lampsOn_j : seen State.result (exec (.lampsOn .J none) (quiet [])) = some (some (.frame 0xD5AAF094AD)) := by decide
theorem test_lampsOff_o5 : seen State.result (exec (.lampsOff .O (some .d5)) (quiet [])) = some (some (.frame 0xD5AA2084AD)) := by
  decide

/-! ### Family SIG, vector V6 -/

theorem test_reset_from_standby :
    seen (fun t => (t.line, t.trace)) (exec .reset (quiet [.ok])) =
      some (⟨false, false⟩, [.wrote ⟨false, false⟩, .settled]) := by decide
theorem test_reset_fails :
    seen (fun t => (t.line, t.trace, t.result)) (exec .reset (quiet [.fail .deviceBusy ⟨true, false⟩])) =
      some (⟨true, false⟩, [.failed ⟨false, false⟩ .deviceBusy], some (.err (.ioError .deviceBusy))) := by decide
theorem test_standby :
    seen (fun t => (t.line, t.trace)) (exec .standby (quiet [.ok])) =
      some (⟨true, true⟩, [.wrote ⟨true, true⟩, .settled]) := by decide
theorem test_bit1 :
    seen (fun t => (t.line, t.trace)) (exec .bit1 (quiet [.ok])) =
      some (⟨true, false⟩, [.wrote ⟨true, false⟩, .settled]) := by decide
theorem test_bit0 :
    seen (fun t => (t.line, t.trace)) (exec .bit0 (quiet [.ok])) =
      some (⟨false, true⟩, [.wrote ⟨false, true⟩, .settled]) := by decide

/-- Vector V7, `SENDBIT 1` with the second write failing. -/
theorem test_sendBit_second_fails :
    seen (fun t => (t.trace, t.result)) (callSendBit true (quiet [.ok, .fail .notFound ⟨false, false⟩])) =
      some ([.wrote ⟨true, false⟩, .settled, .failed ⟨true, true⟩ .notFound], some (.err (.ioError .notFound))) := by decide

/-- Vector S6: the byte `0b10110000`. -/
theorem test_sendByte_order :
    seen (fun t => (writtenLines t.trace).map Line.rts) (callSendByte 0b10110000 (quiet (List.replicate 16 .ok))) =
      some [true, true, false, true, true, true, true, true, false, true, false, true, false, true, false, true] := by decide

/-! ### The sequencer -/

/-- Vector S7: the third bit of the second byte is the write (1,0) of entry 45. -/
theorem test_entry_45 : entry 45 f9On = some (.write ⟨true, false⟩) := by decide
theorem test_writes_below_45 : writesBelow f9On 45 = 22 := by decide
theorem test_transmit_starts :
    seen (fun t => (t.tx, t.trace, phase t)) (callTransmit f9On (quiet [])) =
      some (some ⟨f9On, 0, none⟩, [], .reset0) := by decide
theorem test_entry_0 :
    seen (fun t => (t.line, t.tx.map Transmission.spc)) (step (running f9On 0 [.ok])) = some (⟨false, false⟩, some 1) := by decide
theorem test_last_entry_completes :
    seen (fun t => (phase t, t.dongle)) (step (running f9On 167 [])) = some (.done, .idle) := by decide
theorem test_run_returns :
    seen (fun t => (t.tx, t.result)) (step (running f9On 168 [])) = some (none, some .ok) := by decide
theorem test_spc_out_of_range : step (running f9On 169 []) = .fault .spcOutOfRange := rfl

/-- Program P4, step 1: `SEND C None Off`. -/
theorem test_send_without_device :
    seen (fun t => (t.tx, t.line, t.trace, t.result))
        (step { quiet [] with ops := [.send .C none .turnOff] }) =
      some (none, ⟨true, true⟩, [], some (.err .deviceRequired)) := by decide

/-- A word placed by `withFetchWord` is what the next step runs, from reset. -/
theorem test_withFetchWord :
    seen State.result (step (State.reset.withFetchWord 40 0xD5AA9400AD)) = some (some (.frame 0xD5AA9400AD)) := by decide

/-- The dongle's reading of a trace with one bit and of one that breaks off. -/
theorem test_rxRead :
    rxRead [.wrote ⟨false, false⟩, .wrote ⟨true, true⟩, .wrote ⟨true, false⟩, .wrote ⟨true, true⟩, .wrote ⟨false, false⟩] =
      some ([true], true) ∧
      rxRead [.wrote ⟨false, false⟩, .wrote ⟨true, true⟩, .wrote ⟨true, false⟩] = none := by decide

theorem test_leastDuration : leastDuration ⟨2, 100⟩ [.wrote ⟨true, true⟩, .settled, .commandWaited] = 102 := by decide

/-! ### Witnesses: the hypotheses of the statements can be met -/

theorem test_hyp_DecodeAfterEncode :
    encode (.turnOn .F (some .d9)) = some [0xD5, 0xAA, 0x94, 0x00, 0xAD] ∧ encode .bit1 = some [2] := by decide

theorem test_hyp_EncodeAfterDecode : decode [0xD5, 0xAA, 0x94, 0x00, 0xAD] = .ok (.turnOn .F (some .d9)) := rfl

theorem test_hyp_OpcodeRowsDisjoint :
    ∃ r ∈ opcodeMap, r.matchesFrame f9On = true := ⟨_, List.mem_cons_self, by decide⟩

theorem test_hyp_AlgorithmAgreesWithLayout : Normalised (some .d9) .turnOn ∧ Normalised none .dim := by decide

theorem test_hyp_FrameShape : encodeWith specTables .F (some .d9) .turnOn = .ok f9On := rfl

theorem test_hyp_MiddleBytesAreOrs : selectDeviceCode specTables (some .d9) .turnOn = .ok 0x0400 := rfl

theorem test_hyp_HouseScopedIgnoresDevice : Command.dim.deviceScoped = false := rfl

/-- Tables other than the spec's that meet the conditions of R95. -/
def plainTables : Tables where
  house h := BitVec.ofNat 4 (houseNumber h) ++ 0#4
  device d := BitVec.ofNat 16 (deviceNumber d)
  command c := match c with
    | .turnOn => 0x00 | .turnOff => 0x10 | .dim => 0x80 | .bright => 0x81
    | .allOn => 0x82 | .allOff => 0x83 | .lampsOn => 0x84 | .lampsOff => 0x85

theorem test_hyp_EncoderInjectiveOnAnyTables :
    TablesWf plainTables ∧ Normalised (some .d2) .turnOff ∧
      encodeWith plainTables .B (some .d2) .turnOff = .ok (middleFrame 0x10 0x11) ∧
      selectDeviceCode plainTables (some .d2) .turnOff = .ok 1 := by
  refine ⟨⟨?_, ?_, ?_, ?_, ?_, ?_, ?_⟩, rfl, rfl, rfl⟩
  · intro h; cases h <;> rfl
  · intro h h'; cases h <;> cases h' <;> decide
  · intro d; cases d <;> rfl
  · intro d d'; cases d <;> cases d' <;> decide
  · intro d; cases d <;> decide
  · intro d
    cases d <;> (refine ⟨by decide, by decide, ?_⟩; intro c; cases c <;> decide)
  · intro c c'; cases c <;> cases c' <;> decide

/-- Legal tables other than the spec's: house A, device 2 and the command Off have other codes. -/
def otherTables : Tables where
  house h := match h with
    | .A => 0x70 | .B => 0x60 | h => houseCode h
  device d := match d with
    | .d2 => 0x0008 | .d3 => 0x0010 | d => deviceCode d
  command c := match c with
    | .turnOff => 0x02 | c => commandCode c

theorem test_hyp_TablesLegal : TablesLegal otherTables := by
  refine ⟨⟨?_, ?_, ?_, ?_, ?_, ?_, ?_⟩, ⟨rfl, rfl, rfl, rfl, rfl, rfl, rfl, rfl, rfl, rfl⟩⟩
  · intro h; cases h <;> rfl
  · intro h h'; cases h <;> cases h' <;> decide
  · intro d; cases d <;> rfl
  · intro d d'; cases d <;> cases d' <;> decide
  · intro d; cases d <;> decide
  · intro d
    cases d <;> (refine ⟨by decide, by decide, ?_⟩; intro c; cases c <;> decide)
  · intro c c'; cases c <;> cases c' <;> decide

/-- Over other tables an instruction has other codes (R92, R93), and its frame decodes back (R102). -/
theorem test_openTables_on :
    seen State.result (execWith otherTables (.turnOn .A (some .d2)) (quiet [])) = some (some (.frame 0xD5AA7008AD)) ∧
      seen State.result (exec (.turnOn .A (some .d2)) (quiet [])) = some (some (.frame 0xD5AA6010AD)) := by decide

theorem test_hyp_openTables_decode :
    decodeWith otherTables [0xD5, 0xAA, 0x70, 0x08, 0xAD] = .ok (.turnOn .A (some .d2)) ∧
      decode [0xD5, 0xAA, 0x70, 0x08, 0xAD] = .ok (.turnOn .B (some .d3)) := ⟨rfl, rfl⟩

/-- A byte that is no line word, over any tables. -/
theorem test_hyp_openTables_refused : decodeWith otherTables [4] = .error .badLineByte := rfl

theorem test_hyp_openTables_encode :
    encodeWith otherTables .A (some .d2) .turnOff = .ok 0xD5AA700AAD ∧
      encodeWith otherTables .A none .turnOff = .error .deviceRequired := ⟨rfl, rfl⟩

theorem test_openTables_step :
    seen State.tx (stepWith otherTables { quiet [] with ops := [.send .A (some .d2) .turnOff] }) =
      some (some ⟨0xD5AA700AAD, 0, none⟩) := by decide

theorem test_hyp_OnReturnsItsFrame : deviceNumber .d9 = deviceNumber .d1 + 8 := by decide

theorem test_hyp_AllOnReturnsItsFrame : encodeCommand .O none .allOn = .ok 0xD5AA2091AD := rfl

theorem test_hyp_signals_ok : (quiet [.ok]).tx = none ∧ answerAt (quiet [.ok]) 0 = .ok := by decide

theorem test_hyp_signals_fail :
    (quiet [.fail .notFound ⟨false, true⟩]).tx = none ∧
      answerAt (quiet [.fail .notFound ⟨false, true⟩]) 0 = .fail .notFound ⟨false, true⟩ := by decide

theorem test_hyp_BitOneAssertsRts :
    entry 5 f9On = some (.write ⟨true, false⟩) ∧ entry 161 f9On = some (.write ⟨true, false⟩) := by decide

theorem test_hyp_BitZeroAssertsDtr :
    entry 13 f9On = some (.write ⟨false, true⟩) ∧ entry 157 f9On = some (.write ⟨false, true⟩) := by decide

theorem test_hyp_BusyHandleRefused :
    (running f9On 3 []).tx = some ⟨f9On, 3, none⟩ ∧ exec .reset (running f9On 3 []) = .refused .handleBusy :=
  ⟨rfl, rfl⟩

theorem test_hyp_BusyHandleRefused_send : encodeCommand .F (some .d9) .turnOn = .ok f9On := rfl

theorem test_hyp_SendBitIsBitThenStandby :
    (answerAt (quiet [.ok, .ok]) 0 = .ok ∧ answerAt (quiet [.ok, .ok]) 1 = .ok) ∧
      (answerAt (quiet [.ok, .fail .notFound ⟨true, true⟩]) 0 = .ok ∧
        answerAt (quiet [.ok, .fail .notFound ⟨true, true⟩]) 1 = .fail .notFound ⟨true, true⟩) := by decide

theorem test_hyp_MostSignificantBitFirst : NoWriteFails 16 (quiet (List.replicate 16 .ok)) :=
  noWriteFails_of_replicate 16 _ rfl

/-- The first and the last of the sixteen writes of `0b10110000`, failing. -/
theorem test_hyp_MostSignificantBitFirst_fail :
    ((linesOfBits ([7, 6, 5, 4, 3, 2, 1, 0].map (0b10110000 : Byte).getLsbD))[0]? = some ⟨true, false⟩ ∧
      answerAt (quiet [.fail .notFound ⟨true, true⟩]) 0 = .fail .notFound ⟨true, true⟩) ∧
    ((linesOfBits ([7, 6, 5, 4, 3, 2, 1, 0].map (0b10110000 : Byte).getLsbD))[15]? = some ⟨true, true⟩ ∧
      (∀ k, k < 15 → answerAt (quiet (List.replicate 15 .ok ++ [.fail .notFound ⟨true, true⟩])) k = .ok) ∧
      answerAt (quiet (List.replicate 15 .ok ++ [.fail .notFound ⟨true, true⟩])) 15 = .fail .notFound ⟨true, true⟩) := by
  decide

/-- `SENDBYTE` stops at its third write: the bits sent are 1 and the first half of 0 (R214, R220). -/
theorem test_sendByte_third_fails :
    seen (fun t => (t.trace, t.result)) (callSendByte 0b10110000 (quiet [.ok, .ok, .fail .notFound ⟨false, false⟩])) =
      some ([.wrote ⟨true, false⟩, .settled, .wrote ⟨true, true⟩, .settled, .failed ⟨false, true⟩ .notFound],
        some (.err (.ioError .notFound))) := by decide

theorem test_hyp_TransmitStarts :
    phase (quiet []) = .idle ∧ callTransmit f9On (quiet []) = .next (startRun f9On (quiet [])) := ⟨rfl, rfl⟩

theorem test_hyp_ScheduleEntries : ∀ k, k < 40 → 4 ≠ 5 + 4 * k ∧ 163 ≠ 5 + 4 * k := fun k _ => by omega

/-- A delay at both ends of its range, a successful write, a failing write. -/
theorem test_hyp_StepExecutesOneEntry :
    entry 1 f9On = some (.wait .settle) ∧ entry 167 f9On = some (.wait .settle) ∧
      entry 4 f9On = some (.wait .command) ∧
      entry 0 f9On = some (.write ⟨false, false⟩) ∧ entry 166 f9On = some (.write ⟨false, false⟩) ∧
      answerAt (running f9On 0 [.ok]) 0 = .ok ∧
      answerAt (running f9On 166 [.fail .notFound ⟨true, true⟩]) 0 = .fail .notFound ⟨true, true⟩ ∧
      (aborted f9On 0 ⟨false, false⟩ .notFound).tx = some ⟨f9On, 0, some .notFound⟩ ∧
      (running f9On 168 []).tx = some ⟨f9On, 168, none⟩ := by decide

theorem test_hyp_RunReturnsItsResult :
    phase (running f9On 168 []) = .done ∧ phase (aborted f9On 0 ⟨false, false⟩ .notFound) = .fault := by decide

theorem test_hyp_FailedWriteAborts :
    (running f9On 45 [.fail .deviceBusy ⟨false, false⟩]).tx = some ⟨f9On, 45, none⟩ ∧
      entry 45 f9On = some (.write ⟨true, false⟩) ∧
      answerAt (running f9On 45 [.fail .deviceBusy ⟨false, false⟩]) 0 = .fail .deviceBusy ⟨false, false⟩ := by decide

/-- One case that advances and one that aborts. -/
theorem test_hyp_SpcAdvancesByOne :
    seen State.tx (step (running f9On 167 [])) = some (some ⟨f9On, 168, none⟩) ∧
      seen State.tx (step (running f9On 0 [.fail .notFound ⟨true, true⟩])) = some (some ⟨f9On, 0, some .notFound⟩) := by decide

theorem test_hyp_FrameDoesNotSteer :
    (running f9On 5 [.ok]).answers = (running 0 5 [.ok]).answers ∧
      seen State.tx (step (running f9On 5 [.ok])) = some (some ⟨f9On, 6, none⟩) := by decide

theorem test_hyp_FirstEntryForgetsLine :
    (running f9On 0 [.ok]).tx = some ⟨f9On, 0, none⟩ ∧ answerAt (running f9On 0 [.ok]) 0 = .ok := by decide

/-- A state inside the bit window that meets the invariant. -/
theorem test_hyp_Inv_running : Inv (running f9On 7 [.ok]) := by
  intro tx h
  cases h
  exact ⟨by decide, rfl, fun _ => rfl, fun _ l h => by cases h; rfl, fun _ h => absurd h (by decide), fun e h => by cases h⟩

/-- The two ends of the span of `ALineStaysAsserted`. -/
theorem test_hyp_ALineStaysAsserted : Inv (running f9On 3 []) ∧ Inv (running f9On 166 []) := by
  constructor
  · intro tx h
    cases h
    exact ⟨by decide, rfl, fun _ => rfl, fun _ l h => by cases h; rfl, fun _ h => absurd h (by decide),
      fun e h => by cases h⟩
  · intro tx h
    cases h
    exact ⟨by decide, rfl, fun _ => rfl, fun _ l h => running_line [] h, fun _ h => absurd h (by decide),
      fun e h => by cases h⟩

/-- The states after a failed write and at the end of a run that meet the invariant. -/
theorem test_hyp_Inv_ended :
    Inv (aborted f9On 2 ⟨true, true⟩ .notFound) ∧ Inv (running f9On 168 []) := by
  constructor
  · intro tx h
    cases h
    refine ⟨by decide, rfl, ?_, ?_, ?_, ?_⟩
    · intro h; cases h
    · intro h; cases h
    · intro h; cases h
    · intro e h; cases h; exact ⟨rfl, ⟨true, true⟩, rfl, rfl⟩
  · intro tx h
    cases h
    exact ⟨by decide, rfl, fun _ => rfl, fun _ l h => running_line [] h, fun _ _ => rfl, fun e h => by cases h⟩

theorem test_hyp_InvariantKept :
    seen (fun t => t.tx.map Transmission.spc) (step (running f9On 7 [.ok])) = some (some 8) := by decide

theorem test_hyp_NothingElseStops :
    refusal (step { quiet [] with ops := [.word [4]] }) = some (.notAnOperation .badLineByte) := by decide

theorem test_hyp_SuccessfulTransmission : NoWriteFails 83 (quiet (List.replicate 83 .ok)) :=
  noWriteFails_of_replicate 83 _ rfl

/-- The first, a middle and the last write entry, failing (vector V10). -/
theorem test_hyp_FaultedTransmission :
    (entry 0 f9On = some (.write ⟨false, false⟩) ∧ writesBelow f9On 0 = 0 ∧
      answerAt (quiet [.fail .notFound ⟨true, true⟩]) 0 = .fail .notFound ⟨true, true⟩) ∧
    (entry 7 f9On = some (.write ⟨true, true⟩) ∧ writesBelow f9On 7 = 3 ∧
      (∀ k, k < 3 → answerAt (quiet [.ok, .ok, .ok, .fail .notFound ⟨true, true⟩]) k = .ok) ∧
      answerAt (quiet [.ok, .ok, .ok, .fail .notFound ⟨true, true⟩]) 3 = .fail .notFound ⟨true, true⟩) ∧
    (entry 166 f9On = some (.write ⟨false, false⟩) ∧ writesBelow f9On 166 = 82 ∧
      answerAt (quiet (List.replicate 82 .ok ++ [.fail .notFound ⟨true, true⟩])) 82 = .fail .notFound ⟨true, true⟩) := by
  decide

theorem test_hyp_ScheduleTraceAndCounts :
    (frameByte f9On 0 = 0xD5 ∧ frameByte f9On 1 = 0xAA ∧ frameByte f9On 4 = 0xAD) ∧
      encodeCommand .J (some .d16) .turnOff = .ok 0xD5AAF478AD := ⟨by decide, rfl⟩

theorem test_hyp_CountsBeforeAnEntry :
    entry 163 f9On = some (.write ⟨true, true⟩) ∧ entry 166 f9On = some (.write ⟨false, false⟩) ∧
      entry 2 f9On = some (.write ⟨true, true⟩) := by decide

theorem test_hyp_ScheduleKeepsHazardRules :
    entry 161 f9On = some (.write (bitLine true)) ∧ entry 13 f9On = some (.write (bitLine false)) ∧
      entry 166 f9On = some (.write ⟨false, false⟩) := by decide

theorem test_hyp_FewWritesChangeBothLines :
    (entry 2 f9On = some (.write ⟨true, true⟩) ∧ lastWrite f9On 2 = some ⟨false, false⟩) ∧
      (entry 5 f9On = some (.write ⟨true, false⟩) ∧ lastWrite f9On 5 = some ⟨true, true⟩) ∧
      (entry 163 f9On = some (.write ⟨true, true⟩) ∧ lastWrite f9On 163 = some ⟨true, false⟩) ∧
      (entry 166 f9On = some (.write ⟨false, false⟩) ∧ lastWrite f9On 166 = some ⟨true, true⟩) := by decide

theorem test_hyp_LeastDurationOfTransmission : Timing.Legal ⟨2000, 100000000⟩ ∧ Timing.Legal ⟨999999, 999999999⟩ := by decide

theorem test_hyp_WireCarriesTheFrame : encodeCommand .D (some .d16) .dim = .ok 0xD5AA5098AD := rfl

theorem test_hyp_FaultedTraceIsNoFrame :
    entry 0 f9On = some (.write ⟨false, false⟩) ∧ entry 166 f9On = some (.write ⟨false, false⟩) := by decide

theorem test_hyp_SendDeliversTheCommand :
    let s : State := { quiet (List.replicate 83 .ok) with ops := [.send .D (some .d16) .dim] }
    s.tx = none ∧ s.ops = [.send .D (some .d16) .dim] ∧ NoWriteFails 83 s :=
  ⟨rfl, rfl, noWriteFails_of_replicate 83 _ rfl⟩

theorem test_hyp_SendWithoutDevice :
    let s : State := { quiet [] with ops := [.send .C none .turnOff] }
    s.tx = none ∧ s.ops = [.send .C none .turnOff] := ⟨rfl, rfl⟩

theorem test_hyp_StepRunsTheDecodedInstruction :
    let s : State := { quiet [] with ops := [.word [0xD5, 0xAA, 0x94, 0x00, 0xAD], .call .reset] }
    s.tx = none ∧ s.ops = [.word [0xD5, 0xAA, 0x94, 0x00, 0xAD], .call .reset] ∧
      decode [0xD5, 0xAA, 0x94, 0x00, 0xAD] = .ok (.turnOn .F (some .d9)) ∧ decode [4] = .error .badLineByte :=
  ⟨rfl, rfl, rfl, rfl⟩

theorem test_hyp_StepPerformsTheOperation :
    { quiet [] with ops := [.transmit f9On] }.tx = none ∧ { quiet [] with ops := [.sendBit true] }.tx = none ∧
      { quiet [] with ops := [.sendByte 0xD5] }.tx = none ∧
      { quiet [] with ops := [.send .F (some .d9) .turnOn] }.tx = none ∧
      encodeCommand .F (some .d9) .turnOn = .ok f9On := ⟨rfl, rfl, rfl, rfl, rfl⟩

theorem test_hyp_IdleBlockHoldsItsLines : (quiet []).tx = none ∧ (quiet []).ops = [] := ⟨rfl, rfl⟩

theorem test_hyp_LineChangesOnlyByWrites : seen State.asked (step (running f9On 1 [])) = some 0 := by decide

/-- One step that makes the dongle idle and one that makes it unknown. -/
theorem test_hyp_DongleFollowsTheTransmission :
    (running f9On 167 []).dongle = .unknown ∧ seen State.dongle (step (running f9On 167 [])) = some .idle ∧
      seen State.dongle (step { running f9On 0 [.fail .notFound ⟨true, true⟩] with dongle := .idle }) = some .unknown := by decide

/-- A position in each phase, at the ends of its range. -/
theorem test_hyp_PhaseByPosition :
    phase (running f9On 1 []) = .reset0 ∧ phase (running f9On 2 []) = .standby0 ∧ phase (running f9On 4 []) = .armWait ∧
      phase (running f9On 5 []) = .bits ∧ phase (running f9On 164 []) = .bits ∧
      phase (running f9On 165 []) = .disarmWait ∧ phase (running f9On 166 []) = .reset1 ∧
      phase (running f9On 167 []) = .reset1 ∧ phase (running f9On 168 []) = .done ∧
      phase (aborted f9On 168 ⟨false, false⟩ .notFound) = .fault := by decide

end Sys2Proof.Tests
end

