-- ==== Sys2Proof/Proofs/State.lean ====
section
/-! PROOFS. The statements of 10_state.md: what a step can do to the registers, the invariant of a transmission, and
the phase. -/

namespace Sys2Proof.Machine

/-! ### A step of a transmission -/

/-- `s` after a line write of `l` that the driver answered with success (R170). -/
def afterWrite (l : Line) (s : State) : State :=
  { s with line := l, trace := s.trace ++ [.wrote l], answers := s.answers.tail, asked := s.asked + 1 }

/-- `s` after the transmission `tx` has been aborted by a failing line write of `l` (R258, R262). -/
def afterAbort (tx : Transmission) (l : Line) (e : IoError) (left : Line) (s : State) : State :=
  { s with
    tx := some { tx with err := some e }, dongle := .unknown, line := left,
    trace := s.trace ++ [.failed l e], answers := s.answers.tail, asked := s.asked + 1 }

/-- A step of a transmission that gives a next state: the run returns, a delay elapses, a line write succeeds, or a
line write fails. -/
theorem step_running_next {s t : State} {tx : Transmission} (hs : s.tx = some tx) (h : step s = .next t) :
    t = finishRun tx s ∨
    (tx.err = none ∧ ∃ k, entry tx.spc tx.fr = some (.wait k) ∧ t = advance tx (delay k s)) ∨
    (tx.err = none ∧ ∃ l, entry tx.spc tx.fr = some (.write l) ∧ t = advance tx (afterWrite l s)) ∨
    (tx.err = none ∧ ∃ l e left, entry tx.spc tx.fr = some (.write l) ∧ t = afterAbort tx l e left s) := by
  rw [step_running s tx hs] at h
  obtain ⟨-, e⟩ | ⟨he, k, hk, e⟩ | ⟨he, l, hl, -, e⟩ | ⟨he, l, io, left, hl, -, e⟩ | ⟨-, -, e⟩ :=
    stepTransmission_cases tx s hs
  all_goals
    rw [e] at h
    cases h
  · exact .inl rfl
  · exact .inr (.inl ⟨he, k, hk, rfl⟩)
  · exact .inr (.inr (.inl ⟨he, l, hl, rfl⟩))
  · exact .inr (.inr (.inr ⟨he, l, io, left, hl, rfl⟩))

/-- Only the positions below 168 have an entry (R203). -/
theorem lt_of_entry_eq_some {i : Nat} {F : Frame} {en : Entry} (h : entry i F = some en) : i < 168 := by
  simpa [h] using entry_isSome i F

/-! ### An operation of the caller -/

/-- What every operation of the caller keeps that starts no transmission: the transient registers, the dongle, and,
when the driver answered no write, the lines. -/
structure CallKeeps (s t : State) : Prop where
  tx : t.tx = s.tx
  dongle : t.dongle = s.dongle
  asked : s.asked ≤ t.asked
  line : t.asked = s.asked → t.line = s.line

theorem CallKeeps.trans {s t u : State} (h : CallKeeps s t) (h' : CallKeeps t u) : CallKeeps s u where
  tx := h'.tx.trans h.tx
  dongle := h'.dongle.trans h.dongle
  asked := h.asked.trans h'.asked
  line hask := by
    have := h.asked
    have := h'.asked
    rw [h'.line (by omega), h.line (by omega)]

theorem callKeeps_refl (s : State) : CallKeeps s s := ⟨rfl, rfl, le_rfl, fun _ => rfl⟩

theorem callKeeps_returned (r : Result) (s : State) : CallKeeps s (returned r s) :=
  ⟨rfl, rfl, le_rfl, fun _ => rfl⟩

theorem callKeeps_beginOp (rest : List CallerOp) (s : State) : CallKeeps s (beginOp rest s) :=
  ⟨rfl, rfl, le_rfl, fun _ => rfl⟩

/-- One answered write counts, so nothing is said about the lines. -/
theorem callKeeps_of_asked_succ {s t : State} (htx : t.tx = s.tx) (hd : t.dongle = s.dongle)
    (ha : t.asked = s.asked + 1) : CallKeeps s t :=
  ⟨htx, hd, by omega, fun h => by omega⟩

theorem callKeeps_signal (l : Line) (s : State) : CallKeeps s (signal l s).1 := by
  cases h : answerAt s 0 with
  | ok => rw [signal_ok l s h]; exact callKeeps_of_asked_succ rfl rfl rfl
  | fail e left => rw [signal_fail l s e left h]; exact callKeeps_of_asked_succ rfl rfl rfl

theorem callKeeps_sendBit (b : Bool) (s : State) : CallKeeps s (sendBit b s).1 := by
  have hbit := callKeeps_signal (bitLine b) s
  unfold sendBit
  split
  next s' hs => exact (hs ▸ hbit).trans (callKeeps_signal standbyLine s')
  next s' e hs => exact hs ▸ hbit

theorem callKeeps_sendBits (bs : List Bool) (s : State) : CallKeeps s (sendBits bs s).1 := by
  induction bs generalizing s with
  | nil => exact callKeeps_refl s
  | cons b bs ih =>
    have hbit := callKeeps_sendBit b s
    unfold sendBits
    split
    next s' hs => exact (hs ▸ hbit).trans (ih s')
    next s' e hs => exact hs ▸ hbit

/-- Outside a transmission an error goes to the caller, so handing over the outcome changes only the result. -/
theorem callKeeps_finishSignal {s : State} {r : State × Option IoError} (hs : s.tx = none)
    (h : CallKeeps s r.1) : CallKeeps s (finishSignal r) := by
  obtain ⟨s', _ | e⟩ := r
  · exact h.trans (callKeeps_returned .ok s')
  · rw [finishSignal_fail, raise_ioError_idle e s' (h.tx.trans hs)]
    exact h.trans (callKeeps_returned _ s')

theorem callKeeps_of_exec {i : Instr} {s t : State} (h : exec i s = .next t) : CallKeeps s t := by
  obtain ⟨r, e⟩ | ⟨tx, -, e⟩ | ⟨l, -, -, e⟩ | ⟨l, io, left, -, -, e⟩ := exec_cases i s
  all_goals
    rw [e] at h
    cases h
  · exact callKeeps_returned r s
  · exact callKeeps_of_asked_succ rfl rfl rfl
  · exact callKeeps_of_asked_succ rfl rfl rfl

theorem callKeeps_returnEncodingWith (T : Tables) (h : House) (d : Option Device) (c : Command) (s : State) :
    CallKeeps s (returnEncodingWith T h d c s) := by
  rw [returnEncodingWith_eq]
  split <;> exact callKeeps_returned _ s

/-- Every instruction is a command of family CMD or one of the four line signals. -/
theorem instr_cases (i : Instr) :
    (∃ h d c, i = Instr.ofCommand h d c) ∨ i = .reset ∨ i = .bit0 ∨ i = .bit1 ∨ i = .standby := by
  cases i with
  | turnOn h d => exact .inl ⟨h, d, .turnOn, rfl⟩
  | turnOff h d => exact .inl ⟨h, d, .turnOff, rfl⟩
  | dim h d => exact .inl ⟨h, d, .dim, rfl⟩
  | bright h d => exact .inl ⟨h, d, .bright, rfl⟩
  | allOn h d => exact .inl ⟨h, d, .allOn, rfl⟩
  | allOff h d => exact .inl ⟨h, d, .allOff, rfl⟩
  | lampsOn h d => exact .inl ⟨h, d, .lampsOn, rfl⟩
  | lampsOff h d => exact .inl ⟨h, d, .lampsOff, rfl⟩
  | reset | bit0 | bit1 | standby => simp

theorem callKeeps_of_execWith {T : Tables} {i : Instr} {s t : State} (h : execWith T i s = .next t) :
    CallKeeps s t := by
  obtain ⟨ho, d, c, rfl⟩ | rfl | rfl | rfl | rfl := instr_cases i
  · rw [execWith_ofCommand] at h
    cases h
    exact callKeeps_returnEncodingWith T ho d c s
  · exact callKeeps_of_exec (i := .reset) h
  · exact callKeeps_of_exec (i := .bit0) h
  · exact callKeeps_of_exec (i := .bit1) h
  · exact callKeeps_of_exec (i := .standby) h

/-- An operation of the caller either starts a transmission or keeps what `CallKeeps` says. -/
abbrev StartsOrKeeps (s t : State) : Prop := (∃ F, t = startRun F s) ∨ CallKeeps s t

theorem startsOrKeeps_of_callTransmit {F : Frame} {s t : State} (hs : s.tx = none)
    (h : callTransmit F s = .next t) : StartsOrKeeps s t := by
  rw [callTransmit, whenIdle_idle s _ hs] at h
  cases h
  exact .inl ⟨F, rfl⟩

theorem startsOrKeeps_of_callSendWith {T : Tables} {ho : House} {d : Option Device} {c : Command} {s t : State}
    (hs : s.tx = none) (h : callSendWith T ho d c s = .next t) : StartsOrKeeps s t := by
  unfold callSendWith at h
  obtain ⟨-, -, e⟩ | ⟨dev, -, -, e⟩ | ⟨-, e⟩ := encodeWith_cases T ho d c
  all_goals rw [e] at h
  · cases h
    exact .inr (callKeeps_returned (.err .deviceRequired) s)
  · exact startsOrKeeps_of_callTransmit hs h
  · exact startsOrKeeps_of_callTransmit hs h

theorem startsOrKeeps_of_performOp {op : CallerOp} {s t : State} (hs : s.tx = none)
    (h : performOp op s = .next t) : StartsOrKeeps s t := by
  cases op with
  | word bytes =>
    cases hdec : decode bytes with
    | ok i => exact .inr (callKeeps_of_exec (i := i) (by simpa only [performOp, hdec] using h))
    | error why => simp [performOp, hdec] at h
  | call i => exact .inr (callKeeps_of_exec h)
  | sendBit b =>
    rw [performOp, callSendBit, whenIdle_idle s _ hs] at h
    cases h
    exact .inr (callKeeps_finishSignal hs (callKeeps_sendBit b s))
  | sendByte v =>
    rw [performOp, callSendByte, whenIdle_idle s _ hs] at h
    cases h
    exact .inr (callKeeps_finishSignal hs (callKeeps_sendBits (byteBits v) s))
  | transmit F => exact startsOrKeeps_of_callTransmit hs h
  | send ho d c => exact startsOrKeeps_of_callSendWith hs h

theorem startsOrKeeps_of_performOpWith {T : Tables} {op : CallerOp} {s t : State} (hs : s.tx = none)
    (h : performOpWith T op s = .next t) : StartsOrKeeps s t := by
  cases op with
  | word bytes =>
    cases hdec : decodeWith T bytes with
    | ok i => exact .inr (callKeeps_of_execWith (T := T) (i := i) (by simpa only [performOpWith, hdec] using h))
    | error why => simp [performOpWith, hdec] at h
  | call i => exact .inr (callKeeps_of_execWith h)
  | send ho d c => exact startsOrKeeps_of_callSendWith hs h
  | sendBit b => exact startsOrKeeps_of_performOp (op := .sendBit b) hs h
  | sendByte v => exact startsOrKeeps_of_performOp (op := .sendByte v) hs h
  | transmit F => exact startsOrKeeps_of_performOp (op := .transmit F) hs h

/-- A step with no transmission in progress: one is started, or the registers of the transmission, the dongle and,
without an answered write, the lines are kept. -/
theorem step_idle_next {s t : State} (hs : s.tx = none) (h : step s = .next t) :
    (∃ F rest, t = startRun F (beginOp rest s)) ∨ CallKeeps s t := by
  rw [step_idle s hs, stepIdle] at h
  split at h
  next =>
    cases h
    exact .inr (callKeeps_refl s)
  next op rest hops =>
    obtain ⟨F, rfl⟩ | hk := startsOrKeeps_of_performOp (s := beginOp rest s) hs h
    · exact .inl ⟨F, rest, rfl⟩
    · exact .inr ((callKeeps_beginOp rest s).trans hk)

/-- The same over any tables. -/
theorem stepWith_idle_next {T : Tables} {s t : State} (hs : s.tx = none) (h : stepWith T s = .next t) :
    (∃ F rest, t = startRun F (beginOp rest s)) ∨ CallKeeps s t := by
  cases hops : s.ops with
  | nil => exact step_idle_next hs (by simpa [stepWith, hs, hops] using h)
  | cons op rest =>
    simp only [stepWith, hs, hops] at h
    obtain ⟨F, rfl⟩ | hk := startsOrKeeps_of_performOpWith (s := beginOp rest s) hs h
    · exact .inl ⟨F, rest, rfl⟩
    · exact .inr ((callKeeps_beginOp rest s).trans hk)

/-- A transmission in progress reads no table (R61). -/
theorem stepWith_running (T : Tables) {s : State} {tx : Transmission} (hs : s.tx = some tx) :
    stepWith T s = step s := by
  simp [stepWith, hs]

/-! ### The invariant of a transmission -/

theorem inv_of_tx_none {s : State} (h : s.tx = none) : Inv s := fun tx htx => by simp [h] at htx

theorem inv_of_runInv {s : State} {tx : Transmission} (hs : s.tx = some tx) (h : RunInv tx s) : Inv s :=
  fun tx' htx' => by
    rw [hs] at htx'
    cases htx'
    exact h

theorem inv_startRun (F : Frame) (s : State) : Inv (startRun F s) :=
  inv_of_runInv (startRun_tx F s)
    { inRange := by simp
      notReturned := rfl
      goingTrace := fun _ => (scheduleTrace_zero F).symm
      goingLine := fun _ l h => by simp [lastWrite] at h
      doneDongle := fun _ h => by simp at h
      aborted := fun e h => by simp at h }

/-- An entry that succeeds keeps the invariant, when its event is on the trace and the lines hold the last value
written. -/
theorem inv_advance {tx : Transmission} {en : Entry} {s s' : State} (hi : RunInv tx s) (he : tx.err = none)
    (hen : entry tx.spc tx.fr = some en) (hres : s'.result = s.result)
    (htr : s'.trace = s.trace ++ [en.event])
    (hline : ∀ l, lastWrite tx.fr (tx.spc + 1) = some l → s'.line = l) : Inv (advance tx s') :=
  inv_of_runInv (advance_tx tx s')
    { inRange := lt_of_entry_eq_some hen
      notReturned := hres.trans hi.notReturned
      goingTrace := fun _ => by
        rw [advance_trace, htr, hi.goingTrace he]
        exact (scheduleTrace_succ _ _ _ hen).symm
      goingLine := fun _ => hline
      doneDongle := fun _ h168 => if_pos h168
      aborted := fun e h => by simp [he] at h }

/-- A failing write keeps the invariant: SPC stays at its entry and its event ends the trace. -/
theorem inv_afterAbort {tx : Transmission} {l : Line} {s : State} (hi : RunInv tx s) (he : tx.err = none)
    (hl : entry tx.spc tx.fr = some (.write l)) (e : IoError) (left : Line) : Inv (afterAbort tx l e left s) :=
  inv_of_runInv (tx := { tx with err := some e }) rfl
    { inRange := hi.inRange
      notReturned := hi.notReturned
      goingTrace := fun h => by cases h
      goingLine := fun h => by cases h
      doneDongle := fun h => by cases h
      aborted := fun e' h => by
        cases h
        exact ⟨rfl, l, hl, congrArg (· ++ [Event.failed l e]) (hi.goingTrace he)⟩ }

theorem inv_step_running {s t : State} {tx : Transmission} (hs : s.tx = some tx) (hi : RunInv tx s)
    (h : step s = .next t) : Inv t := by
  obtain rfl | ⟨he, k, hk, rfl⟩ | ⟨he, l, hl, rfl⟩ | ⟨he, l, e, left, hl, rfl⟩ := step_running_next hs h
  · exact inv_of_tx_none (finishRun_tx tx s)
  · refine inv_advance hi he hk rfl rfl fun l hlast => hi.goingLine he l ?_
    rwa [lastWrite_succ_wait _ _ _ hk] at hlast
  · refine inv_advance hi he hl rfl rfl fun l' hlast => ?_
    rw [lastWrite_succ_write _ _ _ hl] at hlast
    exact Option.some.inj hlast
  · exact inv_afterAbort hi he hl e left

/-- With no transmission before the step, the only one after it has just been started. -/
theorem inv_of_startRun_or_callKeeps {s t : State} (hs : s.tx = none)
    (h : (∃ F rest, t = startRun F (beginOp rest s)) ∨ CallKeeps s t) : Inv t := by
  obtain ⟨F, rest, rfl⟩ | hk := h
  · exact inv_startRun F _
  · exact inv_of_tx_none (hk.tx.trans hs)

theorem inv_step {s t : State} (hi : Inv s) (h : step s = .next t) : Inv t := by
  cases hs : s.tx with
  | some tx => exact inv_step_running hs (hi tx hs) h
  | none => exact inv_of_startRun_or_callKeeps hs (step_idle_next hs h)

theorem inv_stepWith {T : Tables} {s t : State} (hi : Inv s) (h : stepWith T s = .next t) : Inv t := by
  cases hs : s.tx with
  | some tx => exact inv_step_running hs (hi tx hs) (stepWith_running T hs ▸ h)
  | none => exact inv_of_startRun_or_callKeeps hs (stepWith_idle_next hs h)

/-! ### The dongle -/

/-- The entry that changes the dongle when it succeeds is the last one, and the run is then done (R205). -/
theorem advance_changes_dongle {tx : Transmission} {s : State} (he : tx.err = none)
    (h : (advance tx s).dongle ≠ s.dongle) : (advance tx s).dongle = .idle ∧ phase (advance tx s) = .done := by
  have h168 : tx.spc + 1 = 168 := by
    by_contra hlt
    exact h (if_neg hlt)
  exact ⟨if_pos h168, by simp [phase, txPhase, he, h168]⟩

/-! ### The first entry -/

/-- A line write overwrites the lines whatever the answer, so what they were does not matter. -/
theorem lineWrite_forgets_line (l old : Line) (s : State) : lineWrite l { s with line := old } = lineWrite l s := by
  have hans : answerAt { s with line := old } 0 = answerAt s 0 := answerAt_congr rfl rfl 0
  cases h : answerAt s 0 with
  | ok => rw [lineWrite_ok l s h, lineWrite_ok l _ (hans.trans h)]
  | fail e left => rw [lineWrite_fail l s e left h, lineWrite_fail l _ e left (hans.trans h)]

theorem entry_zero (F : Frame) : entry 0 F = some (.write resetLine) := rfl

theorem step_first_entry {s : State} {tx : Transmission} (hs : s.tx = some tx) (h0 : tx.spc = 0)
    (he : tx.err = none) : step s = .next (runEntry (.write resetLine) tx s) := by
  rw [step_running s tx hs]
  simp only [stepTransmission, he, h0, entry_zero]

/-! ### The phase -/

theorem phase_running {s : State} {tx : Transmission} (hs : s.tx = some tx) : phase s = txPhase tx := by
  simp [phase, hs]

end Sys2Proof.Machine

namespace Sys2Proof.Proofs

open Sys2Proof.Machine

/-- Settles O40: a run entry by entry, and outside a run only a start makes a transmission. -/
theorem invariantKept : Obligations.InvariantKept :=
  ⟨fun _ _ hi h => inv_step hi h, fun _ _ _ hi h => inv_stepWith hi h⟩

/-- Settles O37, by the four ways a step of a transmission can go. -/
theorem spcAdvancesByOne : Obligations.SpcAdvancesByOne := by
  intro s t tx tx' hs h ht
  obtain rfl | ⟨he, k, hen, rfl⟩ | ⟨he, l, hen, rfl⟩ | ⟨he, l, e, left, hen, rfl⟩ := step_running_next hs h
  · cases ht
  all_goals
    have hlt := lt_of_entry_eq_some hen
    cases ht
  · exact ⟨hlt, he, rfl, .inl ⟨rfl, he⟩⟩
  · exact ⟨hlt, he, rfl, .inl ⟨rfl, he⟩⟩
  · exact ⟨hlt, he, rfl, .inr ⟨rfl, by simp⟩⟩

/-- Settles O57: every way to change LINE counts one more answered write. -/
theorem lineChangesOnlyByWrites : Obligations.LineChangesOnlyByWrites := by
  intro s t h hask
  cases hs : s.tx with
  | some tx =>
    obtain rfl | ⟨-, k, -, rfl⟩ | ⟨-, l, -, rfl⟩ | ⟨-, l, e, left, -, rfl⟩ := step_running_next hs h
    · exact finishRun_line tx s
    · rfl
    · exact absurd hask (Nat.succ_ne_self s.asked)
    · exact absurd hask (Nat.succ_ne_self s.asked)
  | none =>
    obtain ⟨F, rest, rfl⟩ | hk := step_idle_next hs h
    · rfl
    · exact hk.line hask

/-- Settles O58: only the last entry and an abort change the dongle. -/
theorem dongleFollowsTheTransmission : Obligations.DongleFollowsTheTransmission := by
  intro s t h hne
  cases hs : s.tx with
  | some tx =>
    obtain rfl | ⟨he, k, -, rfl⟩ | ⟨he, l, -, rfl⟩ | ⟨-, l, e, left, -, rfl⟩ := step_running_next hs h
    · exact absurd (finishRun_dongle tx s) hne
    · obtain ⟨hidle, hdone⟩ := advance_changes_dongle he hne
      exact ⟨fun _ => hdone, fun hunk => nomatch hidle.symm.trans hunk⟩
    · obtain ⟨hidle, hdone⟩ := advance_changes_dongle he hne
      exact ⟨fun _ => hdone, fun hunk => nomatch hidle.symm.trans hunk⟩
    · exact ⟨nofun, fun _ => rfl⟩
  | none =>
    obtain ⟨F, rest, rfl⟩ | hk := step_idle_next hs h
    · exact absurd rfl hne
    · exact absurd hk.dongle hne

/-- Settles O39: entry 0 is a line write, and a line write overwrites both lines. -/
theorem firstEntryForgetsLine : Obligations.FirstEntryForgetsLine := by
  intro s tx l hs h0 he
  refine ⟨?_, fun hok => ⟨_, step_first_entry hs h0 he, ?_⟩⟩
  · rw [step_first_entry hs h0 he, step_first_entry (s := { s with line := l }) hs h0 he]
    simp only [runEntry, lineWrite_forgets_line]
  · simp only [runEntry, lineWrite_ok resetLine s hok, advance_line]
    rfl

/-- Settles O41: at reset there is no transmission. -/
theorem invariantAtReset : Obligations.InvariantAtReset := inv_of_tx_none rfl

/-- Settles O59, by the definition of the state at reset. -/
theorem resetIsQuiescent : Obligations.ResetIsQuiescent := ⟨rfl, rfl, rfl, rfl⟩

/-- Settles O60, by the error and then the ranges of SPC. -/
theorem phaseByPosition : Obligations.PhaseByPosition := by
  intro s tx hs
  rw [phase_running hs]
  refine ⟨fun e he => by simp [txPhase, he], fun he hle => ?_⟩
  simp only [txPhase, he]
  split_ifs <;> simp <;> omega

end Sys2Proof.Proofs
end

