-- ==== Sys2Proof/Proofs/Memory.lean ====
section
/-! PROOFS. The statements of 20_memory.md: the bit order of a byte and a frame, and the writes that change both
lines. -/

namespace Sys2Proof.Machine

/-! ### `SENDBYTE` -/

theorem byteBits_eq_map_getLsbD (v : Byte) : byteBits v = [7, 6, 5, 4, 3, 2, 1, 0].map v.getLsbD := rfl

/-- `SENDBYTE` without a fault: sixteen writes, and the lines are left at standby (R214). -/
theorem callSendByte_ok {v : Byte} {s : State} (hs : s.tx = none) (hok : NoWriteFails 16 s) :
    callSendByte v s = .next
      { s with line := standbyLine, result := some .ok, answers := s.answers.drop 16, asked := s.asked + 16,
               trace := s.trace ++ (byteBits v).flatMap bitEvents } := by
  have hlen : 2 * (byteBits v).length = 16 := rfl
  rw [callSendByte, whenIdle_idle s _ hs, sendByte, sendBits_ok _ s (hlen ▸ hok), hlen]
  rfl

/-- `SENDBYTE` whose write number `n` is the first to fail: nothing comes after it, and the caller receives the
error (R220). -/
theorem callSendByte_fail {v : Byte} {s : State} {n : Nat} {l : Line} {e : IoError} {left : Line}
    (hs : s.tx = none) (hl : (linesOfBits (byteBits v))[n]? = some l) (hok : NoWriteFails n s)
    (hf : answerAt s n = .fail e left) :
    callSendByte v s = .next
      { s with line := left, result := some (.err (.ioError e)),
               answers := s.answers.drop (n + 1), asked := s.asked + (n + 1),
               trace := s.trace ++ settledWrites ((linesOfBits (byteBits v)).take n) ++ [.failed l e] } := by
  rw [callSendByte, whenIdle_idle s _ hs, sendByte, sendBits_fail _ s n l e left hl hok hf, finishSignal_fail]
  exact congrArg Host.Outcome.next (raise_ioError_idle e _ hs)

/-! ### The lines before a write of the schedule -/

/-- Every bit begins with the lines at standby, from the arm sequence or from the bit before it, and so does the
disarm wait that follows bit number 39 (R203). -/
theorem lastWrite_bit_start (F : Frame) {k : Nat} (hk : k ≤ 40) :
    lastWrite F (5 + 4 * k) = some standbyLine := by
  cases k with
  | zero => rfl
  | succ k =>
    have hstandby : entry (5 + 4 * k + 2) F = some (.write standbyLine) := entry_bit F (by omega) (by omega)
    have hsettle : entry (5 + 4 * k + 3) F = some (.wait .settle) := entry_bit F (by omega) (by omega)
    rw [show 5 + 4 * (k + 1) = 5 + 4 * k + 3 + 1 by omega, lastWrite_succ_wait _ _ _ hsettle,
      lastWrite_succ_write _ _ _ hstandby]

/-- The standby of a bit finds the lines at the bit's signal. -/
theorem lastWrite_bit_standby (F : Frame) {k : Nat} (hk : k < 40) :
    lastWrite F (7 + 4 * k) = some (bitLine (wireBit F k)) := by
  have hbit : entry (5 + 4 * k) F = some (.write (bitLine (wireBit F k))) := entry_bit F hk (by omega : 0 < 4)
  have hsettle : entry (5 + 4 * k + 1) F = some (.wait .settle) := entry_bit F hk (by omega)
  rw [show 7 + 4 * k = 5 + 4 * k + 1 + 1 by omega, lastWrite_succ_wait _ _ _ hsettle,
    lastWrite_succ_write _ _ _ hbit]

/-- The final reset finds the lines at standby: only the command wait stands between it and the last bit. -/
theorem lastWrite_final_reset (F : Frame) : lastWrite F 166 = some standbyLine := by
  have hwait : entry 165 F = some (.wait .command) := rfl
  rw [lastWrite_succ_wait _ _ _ hwait]
  exact lastWrite_bit_start F (le_refl 40)

/-- Where the schedule writes, what, and over which line value: `entry_write_cases` with the value of the write
before (R203). Entry 0 has no write before it. -/
theorem entry_write_lastWrite_cases {i : Nat} {F : Frame} {l : Line} (h : entry i F = some (.write l)) :
    (i = 0 ∧ l = resetLine ∧ lastWrite F i = none) ∨
    (i = 2 ∧ l = standbyLine ∧ lastWrite F i = some resetLine) ∨
    (∃ k, k < 40 ∧ i = 5 + 4 * k ∧ l = bitLine (wireBit F k) ∧ lastWrite F i = some standbyLine) ∨
    (∃ k, k < 40 ∧ i = 7 + 4 * k ∧ l = standbyLine ∧ lastWrite F i = some (bitLine (wireBit F k))) ∨
    (i = 166 ∧ l = resetLine ∧ lastWrite F i = some standbyLine) := by
  obtain ⟨rfl, hl⟩ | ⟨rfl, hl⟩ | ⟨k, hk, rfl, hl⟩ | ⟨k, hk, rfl, hl⟩ | ⟨rfl, hl⟩ := entry_write_cases h
  · exact .inl ⟨rfl, hl, rfl⟩
  · exact .inr (.inl ⟨rfl, hl, rfl⟩)
  · exact .inr (.inr (.inl ⟨k, hk, rfl, hl, lastWrite_bit_start F hk.le⟩))
  · exact .inr (.inr (.inr (.inl ⟨k, hk, rfl, hl, lastWrite_bit_standby F hk⟩)))
  · exact .inr (.inr (.inr (.inr ⟨rfl, hl, lastWrite_final_reset F⟩)))

theorem lastWrite_eq_none_iff_of_write {i : Nat} {F : Frame} {l : Line} (h : entry i F = some (.write l)) :
    lastWrite F i = none ↔ i = 0 := by
  obtain ⟨hi, -, hlast⟩ | ⟨hi, -, hlast⟩ | ⟨k, -, hi, -, hlast⟩ | ⟨k, -, hi, -, hlast⟩ | ⟨hi, -, hlast⟩ :=
    entry_write_lastWrite_cases h
  · exact iff_of_true hlast hi
  all_goals exact iff_of_false (by simp [hlast]) (by omega)

/-! ### Writes that change both lines -/

/-- A write of `new` over `old` changes both lines (R312). -/
abbrev BothLinesChange (old new : Line) : Prop := old.rts ≠ new.rts ∧ old.dtr ≠ new.dtr

/-- A write shows an intermediate value exactly when it changes both lines. -/
theorem splitWrite_eq_singleton_iff (rtsFirst : Bool) (old new : Line) :
    splitWrite rtsFirst old new = [new] ↔ ¬ BothLinesChange old new := by
  unfold splitWrite
  split_ifs with h <;> simpa using h

/-- A bit's signal and standby differ in one line, whichever the bit. -/
theorem not_bothLinesChange_standby_bit (b : Bool) : ¬ BothLinesChange standbyLine (bitLine b) := by
  cases b <;> decide

theorem not_bothLinesChange_bit_standby (b : Bool) : ¬ BothLinesChange (bitLine b) standbyLine := by
  cases b <;> decide

theorem bothLinesChange_resetLine_iff (old : Line) : BothLinesChange old resetLine ↔ old = standbyLine := by
  obtain ⟨r, d⟩ := old
  simp [BothLinesChange, resetLine, standbyLine]

/-- In the schedule, both lines change on the way from reset to standby and back, and nowhere in the bit window. -/
theorem bothLinesChange_iff_of_write {i : Nat} {F : Frame} {l old : Line} (h : entry i F = some (.write l))
    (hold : lastWrite F i = some old) : BothLinesChange old l ↔ i = 2 ∨ i = 166 := by
  obtain ⟨-, -, hlast⟩ | ⟨hi, rfl, hlast⟩ | ⟨k, -, hi, rfl, hlast⟩ | ⟨k, -, hi, rfl, hlast⟩ |
    ⟨hi, rfl, hlast⟩ := entry_write_lastWrite_cases h
  all_goals
    rw [hlast] at hold
    cases hold
  · exact iff_of_true (by decide) (.inl hi)
  · exact iff_of_false (not_bothLinesChange_standby_bit _) (by omega)
  · exact iff_of_false (not_bothLinesChange_bit_standby _) (by omega)
  · exact iff_of_true (by decide) (.inr hi)

end Sys2Proof.Machine

namespace Sys2Proof.Proofs

open Sys2Proof.Machine

/-- Settles O31, by the run of eight `SENDBIT`s without and with a failing write. -/
theorem mostSignificantBitFirst : Obligations.MostSignificantBitFirst :=
  ⟨fun v _ hs hok => byteBits_eq_map_getLsbD v ▸ callSendByte_ok hs hok,
    fun v _ _ _ _ _ hs hl hok hf => byteBits_eq_map_getLsbD v ▸ callSendByte_fail hs hl hok hf,
    by decide,
    fun F _ hk => entry_bit F hk (by omega : 0 < 4)⟩

/-- Settles O48, by the value that each write of the schedule overwrites. -/
theorem fewWritesChangeBothLines : Obligations.FewWritesChangeBothLines := by
  refine ⟨fun F i l old hen hold => ?_, fun F i l hen => lastWrite_eq_none_iff_of_write hen, fun rtsFirst old => ?_⟩
  · have hboth := bothLinesChange_iff_of_write hen hold
    refine ⟨hboth, fun h5 h165 rtsFirst => ?_⟩
    exact (splitWrite_eq_singleton_iff rtsFirst old l).mpr fun hc => by
      have := hboth.mp hc
      omega
  · exact (splitWrite_eq_singleton_iff rtsFirst old resetLine).not_left.trans (bothLinesChange_resetLine_iff old)

end Sys2Proof.Proofs
end

