-- ==== Sys2Proof/Proofs/Encoding.lean ====
section
/-! PROOFS. The statements of 30_encoding.md: the opcode map, the round trip of a word, and the encoder over any
tables. -/

namespace Sys2Proof.Machine

/-! ### Frames as five bytes (R9) -/

theorem frameByte_and (F G : Frame) (j : Nat) : frameByte (F &&& G) j = frameByte F j &&& frameByte G j :=
  BitVec.extractLsb'_and

/-- Two frames are equal when their five bytes are. -/
theorem frame_eq_frameOfBytes_iff {F : Frame} {b0 b1 b2 b3 b4 : Byte} :
    F = frameOfBytes b0 b1 b2 b3 b4 ↔
      frameByte F 0 = b0 ∧ frameByte F 1 = b1 ∧ frameByte F 2 = b2 ∧ frameByte F 3 = b3 ∧ frameByte F 4 = b4 := by
  constructor
  · rintro rfl
    exact frameByte_frameOfBytes b0 b1 b2 b3 b4
  · rintro ⟨rfl, rfl, rfl, rfl, rfl⟩
    exact (frameOfBytes_frameByte F).symm

/-- A mask acts on a frame byte by byte. -/
theorem and_frameOfBytes_eq_iff (F : Frame) (m0 m1 m2 m3 m4 p0 p1 p2 p3 p4 : Byte) :
    F &&& frameOfBytes m0 m1 m2 m3 m4 = frameOfBytes p0 p1 p2 p3 p4 ↔
      frameByte F 0 &&& m0 = p0 ∧ frameByte F 1 &&& m1 = p1 ∧ frameByte F 2 &&& m2 = p2 ∧
        frameByte F 3 &&& m3 = p3 ∧ frameByte F 4 &&& m4 = p4 := by
  obtain ⟨h0, h1, h2, h3, h4⟩ := frameByte_frameOfBytes m0 m1 m2 m3 m4
  simp only [frame_eq_frameOfBytes_iff, frameByte_and, h0, h1, h2, h3, h4]

theorem frameByte_middleFrame (b2 b3 : Byte) :
    frameByte (middleFrame b2 b3) 2 = b2 ∧ frameByte (middleFrame b2 b3) 3 = b3 := by
  obtain ⟨-, -, h2, h3, -⟩ := frameByte_frameOfBytes 0xD5 0xAA b2 b3 0xAD
  exact ⟨h2, h3⟩

theorem middleFrame_inj {b2 b3 c2 c3 : Byte} (h : middleFrame b2 b3 = middleFrame c2 c3) : b2 = c2 ∧ b3 = c3 := by
  obtain ⟨h2, h3⟩ := frameByte_middleFrame b2 b3
  obtain ⟨k2, k3⟩ := frameByte_middleFrame c2 c3
  rw [h] at h2 h3
  exact ⟨h2.symm.trans k2, h3.symm.trans k3⟩

/-! ### The opcode map, row by row (R101) -/

/-- The bits of B2 that the row of a command fixes, all of them clear: bit 2 is free where it carries a device. -/
def fixedHouseBits (c : Command) : Byte := if c.deviceScoped then 0x0B else 0x0F

/-- The bits of B3 that the row of a command fixes: bits 6, 4 and 3 are free where they carry a device. -/
def fixedCommandBits (c : Command) : Byte := if c.deviceScoped then 0xA7 else 0xFF

/-- The row of a command in the opcode map. -/
def rowOf (c : Command) : OpRow :=
  ⟨c, middleFrame 0 (commandCode c), frameOfBytes 0xFF 0xFF (fixedHouseBits c) (fixedCommandBits c) 0xFF⟩

/-- The opcode map holds one row for each command, and no other. -/
theorem mem_opcodeMap_iff (r : OpRow) : r ∈ opcodeMap ↔ r = rowOf r.command := by
  have rows : ∀ r ∈ opcodeMap, r = rowOf r.command := by decide
  have commands : ∀ c ∈ allCommands, rowOf c ∈ opcodeMap := by decide
  exact ⟨rows r, fun h => h ▸ commands _ (mem_allCommands _)⟩

theorem matchesFrame_iff (r : OpRow) (F : Frame) : r.matchesFrame F = true ↔ F &&& r.mask = r.pattern := by
  simp [OpRow.matchesFrame]

/-- What the row of a command asks of the bytes of a frame. -/
theorem rowOf_matchesFrame_iff (c : Command) (F : Frame) : (rowOf c).matchesFrame F = true ↔
    frameByte F 0 = 0xD5 ∧ frameByte F 1 = 0xAA ∧ frameByte F 2 &&& fixedHouseBits c = 0 ∧
      frameByte F 3 &&& fixedCommandBits c = commandCode c ∧ frameByte F 4 = 0xAD := by
  have whole (b : Byte) : b &&& 0xFF = b := BitVec.and_allOnes
  rw [matchesFrame_iff, rowOf, middleFrame, and_frameOfBytes_eq_iff, whole, whole, whole]

/-- Two rows that one frame matches agree where both fix a bit. -/
theorem patterns_agree_of_matches {r r' : OpRow} {F : Frame} (h : r.matchesFrame F = true)
    (h' : r'.matchesFrame F = true) : r.pattern &&& r'.mask = r'.pattern &&& r.mask := by
  rw [← (matchesFrame_iff r F).mp h, ← (matchesFrame_iff r' F).mp h', BitVec.and_assoc, BitVec.and_assoc,
    BitVec.and_comm r.mask]

/-- Any two rows of the map differ in a bit that both fix. -/
theorem opcodeMap_disjoint {F : Frame} {r r' : OpRow} (hr : r ∈ opcodeMap) (hr' : r' ∈ opcodeMap)
    (h : r.matchesFrame F = true) (h' : r'.matchesFrame F = true) : r = r' := by
  have apart : ∀ r ∈ opcodeMap, ∀ r' ∈ opcodeMap, r.pattern &&& r'.mask = r'.pattern &&& r.mask → r = r' := by
    decide
  exact apart r hr r' hr' (patterns_agree_of_matches h h')

/-- A frame decodes to the instruction of the one row that it matches, and to nothing where it matches none. -/
theorem decodeFrame_eq_ok_iff (F : Frame) (i : Instr) :
    decodeFrame F = .ok i ↔ ∃ c, (rowOf c).matchesFrame F = true ∧ i = rowInstr c F := by
  constructor
  · intro h
    obtain ⟨r, hr, hm, hi⟩ := decodeFrame_ok h
    exact ⟨r.command, (mem_opcodeMap_iff r).mp hr ▸ hm, hi⟩
  · rintro ⟨c, hm, rfl⟩
    have hrow : rowOf c ∈ opcodeMap := (mem_opcodeMap_iff _).mpr rfl
    obtain ⟨i, hi⟩ := decodeFrame_of_matches hrow hm
    obtain ⟨r, hr, hm', rfl⟩ := decodeFrame_ok hi
    rw [hi, opcodeMap_disjoint hr hrow hm' hm]
    rfl

/-! ### The layouts and the rows (R100, R101) -/

/-- The bit that tells Off from On in the layout of the device-scoped commands. -/
def offBit (c : Command) : BitVec 1 := if c = .turnOff then 1 else 0

theorem matches_deviceRow_iff {c : Command} (hc : c.deviceScoped = true) (F : Frame) :
    (rowOf c).matchesFrame F = true ↔ F &&& 0xFFFF0BA7FF = devicePattern (offBit c) := by
  have hrow : rowOf c = ⟨c, devicePattern (offBit c), 0xFFFF0BA7FF⟩ := by
    cases c with
    | turnOn | turnOff => rfl
    | dim | bright | allOn | allOff | lampsOn | lampsOff => cases hc
  rw [matchesFrame_iff, hrow]

theorem matches_houseRow_iff {c : Command} (hc : c.deviceScoped = false) (F : Frame) :
    (rowOf c).matchesFrame F = true ↔ F &&& 0xFFFF0FFFFF = middleFrame 0 (commandCode c) := by
  have hrow : rowOf c = ⟨c, middleFrame 0 (commandCode c), 0xFFFF0FFFFF⟩ := by
    cases c with
    | turnOn | turnOff => cases hc
    | dim | bright | allOn | allOff | lampsOn | lampsOff => rfl
  rw [matchesFrame_iff, hrow]

theorem deviceLayout_and_mask (off : BitVec 1) (h : House) (d : Device) :
    deviceLayout off h d &&& 0xFFFF0BA7FF = devicePattern off := by
  obtain rfl | rfl : off = 0 ∨ off = 1 := by revert off; decide
  all_goals cases h <;> cases d <;> rfl

/-- The house-scoped layout as five bytes: the house code over a zero nibble, then the command code. -/
theorem houseLayout_eq_middleFrame (code : Byte) (h : House) :
    houseLayout code h = middleFrame (houseNibble h ++ 0#4) code :=
  congrArg (· ++ code ++ 0xAD#8) (BitVec.append_assoc (x₁ := 0xD5AA#16) (x₂ := houseNibble h) (x₃ := 0#4))

theorem houseLayout_and_mask (code : Byte) (h : House) :
    houseLayout code h &&& 0xFFFF0FFFFF = middleFrame 0 code := by
  have hhouse : (houseNibble h ++ 0#4 : Byte) &&& 0x0F = 0 := by cases h <;> rfl
  have hmask : (0xFFFF0FFFFF : Frame) = frameOfBytes 0xFF 0xFF 0x0F 0xFF 0xFF := rfl
  obtain ⟨h0, h1, h2, h3, h4⟩ := frameByte_frameOfBytes 0xD5 0xAA (houseNibble h ++ 0#4) code 0xAD
  rw [houseLayout_eq_middleFrame, hmask, middleFrame, middleFrame, and_frameOfBytes_eq_iff, h0, h1, h2, h3, h4]
  exact ⟨rfl, rfl, hhouse, BitVec.and_allOnes, rfl⟩

/-! ### The fields of a layout, read back (R102) -/

theorem frameHouse_deviceLayout (off : BitVec 1) (h : House) (d : Device) :
    frameHouse (deviceLayout off h d) = h := by
  simp (disch := decide) only [frameHouse, deviceLayout, BitVec.extractLsb'_append_eq_of_le, Nat.reduceSub,
    BitVec.extractLsb'_append_eq_right, houseOfNibble_houseNibble]

theorem frameDevice_deviceLayout (off : BitVec 1) (h : House) (d : Device) :
    frameDevice (deviceLayout off h d) = d := by
  simp (disch := decide) only [frameDevice, deviceLayout, BitVec.extractLsb'_append_eq_of_le, Nat.reduceSub,
    BitVec.extractLsb'_append_eq_of_add_le, BitVec.extractLsb'_eq_self,
    BitVec.extractLsb'_append_extractLsb'_eq_extractLsb', deviceOfIndex_deviceIndex]

theorem frameHouse_houseLayout (code : Byte) (h : House) : frameHouse (houseLayout code h) = h := by
  simp (disch := decide) only [frameHouse, houseLayout, BitVec.extractLsb'_append_eq_of_le, Nat.reduceSub,
    BitVec.extractLsb'_append_eq_right, houseOfNibble_houseNibble]

theorem decodeFrame_deviceLayout {c : Command} (hc : c.deviceScoped = true) (h : House) (d : Device) :
    decodeFrame (deviceLayout (offBit c) h d) = .ok (Instr.ofCommand h (some d) c) :=
  (decodeFrame_eq_ok_iff _ _).mpr ⟨c, (matches_deviceRow_iff hc _).mpr (deviceLayout_and_mask _ h d),
    by simp [rowInstr, hc, frameHouse_deviceLayout, frameDevice_deviceLayout]⟩

theorem decodeFrame_houseLayout {c : Command} (hc : c.deviceScoped = false) (h : House) :
    decodeFrame (houseLayout (commandCode c) h) = .ok (Instr.ofCommand h none c) :=
  (decodeFrame_eq_ok_iff _ _).mpr ⟨c, (matches_houseRow_iff hc _).mpr (houseLayout_and_mask _ h),
    by simp [rowInstr, hc, frameHouse_houseLayout]⟩

/-! ### The word of a command (R100, R110) -/

/-- The six house-scoped command codes (R98). -/
theorem mem_houseScopedCodes_iff (b : Byte) :
    b ∈ ([0x98, 0x88, 0x91, 0x80, 0x94, 0x84] : List Byte) ↔ ∃ c, c.deviceScoped = false ∧ b = commandCode c := by
  constructor
  · simp only [List.mem_cons, List.not_mem_nil, or_false]
    rintro (rfl | rfl | rfl | rfl | rfl | rfl)
    exacts [⟨.dim, rfl, rfl⟩, ⟨.bright, rfl, rfl⟩, ⟨.allOn, rfl, rfl⟩, ⟨.allOff, rfl, rfl⟩, ⟨.lampsOn, rfl, rfl⟩,
      ⟨.lampsOff, rfl, rfl⟩]
  · rintro ⟨c, hc, rfl⟩
    cases c with
    | turnOn | turnOff => cases hc
    | dim | bright | allOn | allOff | lampsOn | lampsOff => decide


/-- A device-scoped command has a word exactly with a device. -/
theorem encode_deviceScoped {c : Command} (hc : c.deviceScoped = true) (h : House) (d : Option Device) :
    encode (Instr.ofCommand h d c) = d.map fun dev => frameBytes (deviceLayout (offBit c) h dev) := by
  cases c with
  | turnOn | turnOff => cases d <;> rfl
  | dim | bright | allOn | allOff | lampsOn | lampsOff => cases hc

/-- A house-scoped command has a word exactly without a device. -/
theorem encode_houseScoped {c : Command} (hc : c.deviceScoped = false) (h : House) (d : Option Device) :
    encode (Instr.ofCommand h d c) =
      if d = none then some (frameBytes (houseLayout (commandCode c) h)) else none := by
  cases c with
  | turnOn | turnOff => cases hc
  | dim | bright | allOn | allOff | lampsOn | lampsOff => cases d <;> rfl

theorem wellFormed_eq_isSome_encode (i : Instr) : i.wellFormed = (encode i).isSome := by
  cases i with
  | turnOn h d | turnOff h d | dim h d | bright h d | allOn h d | allOff h d | lampsOn h d | lampsOff h d =>
    cases d <;> rfl
  | reset | bit0 | bit1 | standby => rfl

/-! ### Decoding after encoding, encoding after decoding -/

theorem decode_frameBytes (F : Frame) : decode (frameBytes F) = decodeFrame F := by
  rw [frameBytes, decode, frameOfBytes_frameByte]

theorem decode_encode {i : Instr} {bs : List Byte} (he : encode i = some bs) : decode bs = .ok i := by
  obtain ⟨h, d, c, rfl⟩ | rfl | rfl | rfl | rfl := instr_cases i
  · cases hc : c.deviceScoped with
    | true =>
      rw [encode_deviceScoped hc] at he
      obtain ⟨dev, rfl, rfl⟩ := Option.map_eq_some_iff.mp he
      rw [decode_frameBytes, decodeFrame_deviceLayout hc]
    | false =>
      rw [encode_houseScoped hc] at he
      obtain ⟨rfl, hbs⟩ := Option.ite_none_right_eq_some.mp he
      cases hbs
      rw [decode_frameBytes, decodeFrame_houseLayout hc]
  all_goals
    cases he
    rfl

/-- Bytes that decode are a line word or the five bytes of a frame that decodes. -/
theorem decode_ok_cases {bs : List Byte} {i : Instr} (h : decode bs = .ok i) :
    (∃ v : BitVec 2, bs = [v.setWidth 8] ∧ i = decodeLine v) ∨ ∃ F, bs = frameBytes F ∧ decodeFrame F = .ok i := by
  have container (b : Byte) : b.extractLsb' 2 6 = 0 → b = (b.extractLsb' 0 2).setWidth 8 := by revert b; decide
  unfold decode at h
  split at h
  next b =>
    split_ifs at h with hb
    cases h
    exact .inl ⟨_, congrArg (fun b => [b]) (container b hb), rfl⟩
  next b0 b1 b2 b3 b4 => exact .inr ⟨_, (frameBytes_frameOfBytes b0 b1 b2 b3 b4).symm, h⟩
  next => cases h

theorem encode_decodeLine (v : BitVec 2) : encode (decodeLine v) = some [v.setWidth 8] := by
  revert v; decide

theorem encode_of_decodeFrame {F : Frame} {i : Instr} (h : decodeFrame F = .ok i) :
    encode i = some (frameBytes F) := by
  obtain ⟨c, hm, rfl⟩ := (decodeFrame_eq_ok_iff F i).mp h
  cases hc : c.deviceScoped with
  | true =>
    have hlayout := deviceLayout_of_matches F _ ((matches_deviceRow_iff hc F).mp hm)
    simp [rowInstr, hc, encode_deviceScoped hc, hlayout]
  | false =>
    have hcode := (mem_houseScopedCodes_iff _).mpr ⟨c, hc, rfl⟩
    have hlayout := houseLayout_of_matches F _ hcode ((matches_houseRow_iff hc F).mp hm)
    simp [rowInstr, hc, encode_houseScoped hc, hlayout]

theorem encode_decode {bs : List Byte} {i : Instr} (h : decode bs = .ok i) : encode i = some bs := by
  obtain ⟨v, rfl, rfl⟩ | ⟨F, rfl, hF⟩ := decode_ok_cases h
  · exact encode_decodeLine v
  · exact encode_of_decodeFrame hF

/-! ### The frames that decode (R111) -/

theorem and_deviceHouseBits_iff (b : Byte) :
    b &&& 0x0B = 0 ↔ b.getLsbD 3 = false ∧ b.getLsbD 1 = false ∧ b.getLsbD 0 = false := by
  revert b; decide

theorem and_houseBits_iff (b : Byte) : b &&& 0x0F = 0 ↔
    b.getLsbD 3 = false ∧ b.getLsbD 1 = false ∧ b.getLsbD 0 = false ∧ b.getLsbD 2 = false := by
  revert b; decide

/-- Bit 5, which tells On from Off, may be either. -/
theorem and_deviceCommandBits_iff (b : Byte) : b &&& 0xA7 = 0x00 ∨ b &&& 0xA7 = 0x20 ↔
    b.getLsbD 7 = false ∧ b.getLsbD 2 = false ∧ b.getLsbD 1 = false ∧ b.getLsbD 0 = false := by
  revert b; decide

/-! ### ORs without carry -/

/-- Where each side has no bit of the other's second operand, an OR determines both of its operands. -/
theorem or_inj_of_disjoint {w : Nat} {x y a b : BitVec w} (hxb : x &&& b = 0) (hya : y &&& a = 0)
    (h : x ||| a = y ||| b) : x = y ∧ a = b := by
  have bits (i : Nat) : x.getLsbD i = y.getLsbD i ∧ a.getLsbD i = b.getLsbD i := by
    have hi := congrArg (·.getLsbD i) h
    have hxbi := congrArg (·.getLsbD i) hxb
    have hyai := congrArg (·.getLsbD i) hya
    simp only [BitVec.getLsbD_or, BitVec.getLsbD_and, BitVec.ofNat_eq_ofNat, BitVec.getLsbD_zero] at hi hxbi hyai
    revert hi hxbi hyai
    generalize x.getLsbD i = xi, y.getLsbD i = yi, a.getLsbD i = ai, b.getLsbD i = bi
    revert xi yi ai bi
    decide
  exact ⟨BitVec.eq_of_getLsbD_eq fun i _ => (bits i).1, BitVec.eq_of_getLsbD_eq fun i _ => (bits i).2⟩

/-- An OR of operands without a common bit is an addition without carry. -/
theorem toNat_or_of_disjoint {w : Nat} {x y : BitVec w} (h : x &&& y = 0) :
    (x ||| y).toNat = x.toNat + y.toNat := by
  rw [← BitVec.add_eq_or_of_and_eq_zero x y h, BitVec.toNat_add_of_and_eq_zero h]

/-- A word whose high part and low part are those of another is that word. -/
theorem eq_of_extractLsb'_eq {hi lo : Nat} {x y : BitVec (hi + lo)}
    (hhi : x.extractLsb' lo hi = y.extractLsb' lo hi) (hlo : x.extractLsb' 0 lo = y.extractLsb' 0 lo) : x = y := by
  have split (z : BitVec (hi + lo)) : z.extractLsb' lo hi ++ z.extractLsb' 0 lo = z := by
    rw [BitVec.extractLsb'_append_extractLsb'_eq_extractLsb' (Nat.zero_add lo).symm, BitVec.extractLsb'_eq_self]
  rw [← split x, ← split y, hhi, hlo]

/-! ### The device code of an encoding (R94) -/

theorem selectDeviceCode_ok_cases {T : Tables} {d : Option Device} {c : Command} {dc : DeviceWord}
    (h : selectDeviceCode T d c = .ok dc) :
    (∃ dev, c.deviceScoped = true ∧ d = some dev ∧ dc = T.device dev) ∨ (c.deviceScoped = false ∧ dc = 0) := by
  unfold selectDeviceCode at h
  cases hc : c.deviceScoped with
  | true =>
    cases d with
    | none => simp [hc] at h
    | some dev => exact .inl ⟨dev, rfl, rfl, by simpa [hc] using h.symm⟩
  | false => exact .inr ⟨rfl, by simpa [hc] using h.symm⟩

/-- The encoder's frame: the two ORs of R92 and R93 over the selected device code. -/
theorem encodeWith_eq_ok_iff (T : Tables) (h : House) (d : Option Device) (c : Command) (F : Frame) :
    encodeWith T h d c = .ok F ↔
      ∃ dc, selectDeviceCode T d c = .ok dc ∧ F = middleFrame (houseByte T h dc) (deviceCommandByte T c dc) := by
  unfold encodeWith
  cases selectDeviceCode T d c with
  | error e => simp
  | ok dc => simp [middleFrame, eq_comm]

/-! ### Well-formed tables (R95) -/

section
variable {T : Tables} (hT : TablesWf T)
include hT

/-- A house code has nothing in its low nibble, a device code nothing in the high nibble of its high byte. -/
theorem house_and_highByte_device (h : House) (d : Device) : T.house h &&& highByte (T.device d) = 0 := by
  have hhigh : (highByte (T.device d)).extractLsb' 4 4 = 0 := by
    refine Eq.trans (BitVec.eq_of_getLsbD_eq fun i hi => ?_) (hT.deviceHigh d)
    simp [highByte, hi, show 4 + i < 8 by omega, ← Nat.add_assoc]
  apply eq_of_extractLsb'_eq (hi := 4) (lo := 4)
  · rw [BitVec.extractLsb'_and, hhigh]
    exact BitVec.and_zero
  · rw [BitVec.extractLsb'_and, hT.houseLow]
    exact BitVec.zero_and

theorem house_and_highByte {d : Option Device} {c : Command} {dc : DeviceWord}
    (hdc : selectDeviceCode T d c = .ok dc) (h : House) : T.house h &&& highByte dc = 0 := by
  obtain ⟨dev, -, -, rfl⟩ | ⟨-, rfl⟩ := selectDeviceCode_ok_cases hdc
  · exact house_and_highByte_device hT h dev
  · exact BitVec.and_zero

theorem lowByte_device_and_command {c : Command} (hc : c.deviceScoped = true) (d : Device) :
    lowByte (T.device d) &&& T.command c = 0 := by
  obtain ⟨hon, hoff⟩ := hT.deviceDisjoint d
  cases c with
  | turnOn => exact hon
  | turnOff => exact hoff
  | dim | bright | allOn | allOff | lampsOn | lampsOff => cases hc

theorem lowByte_and_command {d : Option Device} {c : Command} {dc : DeviceWord}
    (hdc : selectDeviceCode T d c = .ok dc) : lowByte dc &&& T.command c = 0 := by
  obtain ⟨dev, hc, -, rfl⟩ | ⟨-, rfl⟩ := selectDeviceCode_ok_cases hdc
  · exact lowByte_device_and_command hT hc dev
  · exact BitVec.zero_and

/-- No device makes the code of On or Off into a house-scoped code. -/
theorem lowByte_device_or_command_ne {c c' : Command} (hc : c.deviceScoped = true) (hc' : c'.deviceScoped = false)
    (d : Device) : lowByte (T.device d) ||| T.command c ≠ T.command c' := by
  obtain ⟨-, -, hapart⟩ := hT.deviceApart d
  obtain ⟨hon, hoff⟩ := hapart c' hc'
  cases c with
  | turnOn => exact hon
  | turnOff => exact hoff
  | dim | bright | allOn | allOff | lampsOn | lampsOff => cases hc

theorem deviceCommandByte_inj {d d' : Option Device} {c c' : Command} {dc dc' : DeviceWord}
    (hdc : selectDeviceCode T d c = .ok dc) (hdc' : selectDeviceCode T d' c' = .ok dc')
    (hb : deviceCommandByte T c dc = deviceCommandByte T c' dc') : c = c' ∧ lowByte dc = lowByte dc' := by
  have hzero (b : Byte) : lowByte 0 ||| b = b := BitVec.zero_or
  unfold deviceCommandByte at hb
  obtain ⟨dev, hc, -, rfl⟩ | ⟨hc, rfl⟩ := selectDeviceCode_ok_cases hdc <;>
    obtain ⟨dev', hc', -, rfl⟩ | ⟨hc', rfl⟩ := selectDeviceCode_ok_cases hdc'
  · obtain ⟨hlow, hcmd⟩ := or_inj_of_disjoint (lowByte_device_and_command hT hc' dev)
      (lowByte_device_and_command hT hc dev') hb
    exact ⟨hT.commandDistinct c c' hcmd, hlow⟩
  · exact absurd (hb.trans (hzero _)) (lowByte_device_or_command_ne hT hc hc' dev)
  · exact absurd (hb.symm.trans (hzero _)) (lowByte_device_or_command_ne hT hc' hc dev')
  · rw [hzero, hzero] at hb
    exact ⟨hT.commandDistinct c c' hb, rfl⟩

theorem selectDeviceCode_inj {d d' : Option Device} {c : Command} {dc : DeviceWord} (hn : Normalised d c)
    (hn' : Normalised d' c) (hdc : selectDeviceCode T d c = .ok dc) (hdc' : selectDeviceCode T d' c = .ok dc) :
    d = d' := by
  obtain ⟨dev, hc, rfl, rfl⟩ | ⟨hc, -⟩ := selectDeviceCode_ok_cases hdc
  · obtain ⟨dev', -, rfl, heq⟩ | ⟨hc', -⟩ := selectDeviceCode_ok_cases hdc'
    · rw [hT.deviceDistinct dev dev' heq]
    · cases hc.symm.trans hc'
  · have hd : d = none := by simpa [Normalised, hc] using hn
    have hd' : d' = none := by simpa [Normalised, hc] using hn'
    rw [hd, hd']

theorem encodeWith_inj {h h' : House} {d d' : Option Device} {c c' : Command} {F : Frame} (hn : Normalised d c)
    (hn' : Normalised d' c') (he : encodeWith T h d c = .ok F) (he' : encodeWith T h' d' c' = .ok F) :
    h = h' ∧ d = d' ∧ c = c' := by
  obtain ⟨dc, hdc, rfl⟩ := (encodeWith_eq_ok_iff T h d c F).mp he
  obtain ⟨dc', hdc', hF⟩ := (encodeWith_eq_ok_iff T h' d' c' _).mp he'
  obtain ⟨hb2, hb3⟩ := middleFrame_inj hF
  obtain ⟨hhouse, hhigh⟩ := or_inj_of_disjoint (house_and_highByte hT hdc' h) (house_and_highByte hT hdc h') hb2
  obtain ⟨rfl, hlow⟩ := deviceCommandByte_inj hT hdc hdc' hb3
  obtain rfl : dc = dc' := eq_of_extractLsb'_eq (hi := 8) (lo := 8) hhigh hlow
  exact ⟨hT.houseDistinct h h' hhouse, selectDeviceCode_inj hT hn hn' hdc hdc', rfl⟩

/-- Decoding over well-formed tables inverts the encoder (R102). -/
theorem decodeFrameWith_eq_ok_iff (F : Frame) (i : Instr) : decodeFrameWith T F = .ok i ↔
    ∃ h d c, Normalised d c ∧ i = Instr.ofCommand h d c ∧ encodeWith T h d c = .ok F := by
  obtain ⟨x, hn, he, hdec⟩ | ⟨hnone, hdec⟩ := decodeFrameWith_cases T F
  · rw [hdec]
    constructor
    · intro hi
      cases hi
      exact ⟨x.house, x.device, x.command, hn, rfl, he⟩
    · rintro ⟨h, d, c, hn', rfl, he'⟩
      obtain ⟨rfl, rfl, rfl⟩ := encodeWith_inj hT hn' hn he' he
      rfl
  · rw [hdec]
    exact iff_of_false nofun fun ⟨h, d, c, hn, _, he⟩ => hnone ⟨h, d, c⟩ hn he

end

/-! ### The spec's tables (R96 to R98) -/

/-- A `HOUSE_CODE` entry is the house's 4-bit code over a zero low nibble. -/
theorem houseCode_eq (h : House) : houseCode h = houseNibble h ++ 0#4 := by
  cases h <;> rfl

theorem tablesWf_specTables : TablesWf specTables where
  houseLow h := by cases h <;> rfl
  houseDistinct h h' := by
    have houses : ∀ h ∈ allHouses, ∀ h' ∈ allHouses, houseCode h = houseCode h' → h = h' := by decide
    exact houses h (mem_allHouses h) h' (mem_allHouses h')
  deviceHigh d := by cases d <;> rfl
  deviceDistinct d d' := by
    have devices : ∀ d ∈ allDevices, ∀ d' ∈ allDevices, deviceCode d = deviceCode d' → d = d' := by decide
    exact devices d (mem_allDevices d) d' (mem_allDevices d')
  deviceDisjoint d := by cases d <;> exact ⟨rfl, rfl⟩
  deviceApart d := by
    have apart : ∀ d ∈ allDevices,
        lowByte (deviceCode d) ||| commandCode .turnOn ≠ commandCode .turnOff ∧
        lowByte (deviceCode d) ||| commandCode .turnOff ≠ commandCode .turnOn ∧
        ∀ c ∈ allCommands, c.deviceScoped = false →
          lowByte (deviceCode d) ||| commandCode .turnOn ≠ commandCode c ∧
            lowByte (deviceCode d) ||| commandCode .turnOff ≠ commandCode c := by decide
    obtain ⟨hon, hoff, hscoped⟩ := apart d (mem_allDevices d)
    exact ⟨hon, hoff, fun c => hscoped c (mem_allCommands c)⟩
  commandDistinct c c' := by
    have commands : ∀ c ∈ allCommands, ∀ c' ∈ allCommands, commandCode c = commandCode c' → c = c' := by decide
    exact commands c (mem_allCommands c) c' (mem_allCommands c')

theorem tablesLegal_specTables : TablesLegal specTables :=
  ⟨tablesWf_specTables, ⟨rfl, rfl, rfl, rfl, rfl, rfl, rfl, rfl, rfl, rfl⟩⟩

theorem encodeWith_deviceScoped (T : Tables) {c : Command} (hc : c.deviceScoped = true) (h : House) (d : Device) :
    encodeWith T h (some d) c =
      .ok (middleFrame (T.house h ||| highByte (T.device d)) (lowByte (T.device d) ||| T.command c)) := by
  simpa [hc] using encodeWith_cases T h (some d) c

theorem encodeWith_houseScoped (T : Tables) {c : Command} (hc : c.deviceScoped = false) (h : House)
    (d : Option Device) : encodeWith T h d c = .ok (middleFrame (T.house h) (T.command c)) := by
  simpa [hc] using encodeWith_cases T h d c

/-- The ten entries that the source fixes determine its five frames (R99). -/
theorem sourceFrames_of_pinned {T : Tables} (hp : TablesPinned T) :
    encodeWith T .F (some .d9) .turnOn = .ok 0xD5AA9400AD ∧ encodeWith T .J (some .d1) .turnOn = .ok 0xD5AAF000AD ∧
    encodeWith T .O none .allOn = .ok 0xD5AA2091AD ∧ encodeWith T .O none .lampsOff = .ok 0xD5AA2084AD ∧
    encodeWith T .D none .dim = .ok 0xD5AA5098AD := by
  rw [encodeWith_deviceScoped T rfl, encodeWith_deviceScoped T rfl, encodeWith_houseScoped T rfl,
    encodeWith_houseScoped T rfl, encodeWith_houseScoped T rfl, hp.houseF, hp.houseJ, hp.houseO, hp.houseD,
    hp.device9, hp.device1, hp.commandOn, hp.commandAllOn, hp.commandLampsOff, hp.commandDim]
  exact ⟨rfl, rfl, rfl, rfl, rfl⟩

/-! ### The line words (R104) -/

/-- The signal of a line word is the signal of the levels that its two bits are. -/
theorem exec_decodeLine (v : BitVec 2) (s : State) : exec (decodeLine v) s = callSignal (lineOfWord v) s := by
  obtain rfl | rfl | rfl | rfl : v = 0 ∨ v = 1 ∨ v = 2 ∨ v = 3 := by revert v; decide
  all_goals rfl

theorem callSignal_ok (l : Line) {s : State} (hs : s.tx = none) (hok : answerAt s 0 = .ok) :
    callSignal l s = .next (afterSignal l s) := by
  obtain ⟨tx, htx, -⟩ | ⟨-, -, e⟩ | ⟨io, left, -, hf, -⟩ := callSignal_cases l s
  · cases hs.symm.trans htx
  · exact e
  · cases hok.symm.trans hf

end Sys2Proof.Machine

namespace Sys2Proof.Proofs

open Sys2Proof.Machine

/-- Settles O1: a layout matches the row of its command and its fields read back; a line word by its four values. -/
theorem decodeAfterEncode : Obligations.DecodeAfterEncode :=
  ⟨fun _ _ => decode_encode, wellFormed_eq_isSome_encode⟩

/-- Settles O2: a frame that matches a row is the layout of its own fields. -/
theorem encodeAfterDecode : Obligations.EncodeAfterDecode :=
  fun _ _ => encode_decode

/-- Settles O4: any two rows differ in a bit that both fix. -/
theorem opcodeRowsDisjoint : Obligations.OpcodeRowsDisjoint :=
  fun _ _ _ => opcodeMap_disjoint

/-- Settles O5, by what a device-scoped and a house-scoped row ask of the bytes. -/
theorem unreachableFramesRefused : Obligations.UnreachableFramesRefused := by
  intro F
  constructor
  · rintro ⟨i, hi⟩
    obtain ⟨c, hm, -⟩ := (decodeFrame_eq_ok_iff F i).mp hi
    obtain ⟨h0, h1, h2, h3, h4⟩ := (rowOf_matchesFrame_iff c F).mp hm
    cases c with
    | turnOn =>
      obtain ⟨b3, b1, b0⟩ := (and_deviceHouseBits_iff _).mp h2
      exact ⟨h0, h1, h4, b3, b1, b0, .inl ((and_deviceCommandBits_iff _).mp (.inl h3))⟩
    | turnOff =>
      obtain ⟨b3, b1, b0⟩ := (and_deviceHouseBits_iff _).mp h2
      exact ⟨h0, h1, h4, b3, b1, b0, .inl ((and_deviceCommandBits_iff _).mp (.inr h3))⟩
    | dim | bright | allOn | allOff | lampsOn | lampsOff =>
      obtain ⟨b3, b1, b0, b2⟩ := (and_houseBits_iff _).mp h2
      have hcode := BitVec.and_allOnes.symm.trans h3
      exact ⟨h0, h1, h4, b3, b1, b0, .inr ⟨b2, (mem_houseScopedCodes_iff _).mpr ⟨_, rfl, hcode⟩⟩⟩
  · have decodes (c : Command) (hm : (rowOf c).matchesFrame F = true) : ∃ i, decodeFrame F = .ok i :=
      ⟨_, (decodeFrame_eq_ok_iff F _).mpr ⟨c, hm, rfl⟩⟩
    rintro ⟨h0, h1, h4, b3, b1, b0, hdev | ⟨b2, hmem⟩⟩
    · have h2 := (and_deviceHouseBits_iff _).mpr ⟨b3, b1, b0⟩
      obtain h3 | h3 := (and_deviceCommandBits_iff _).mpr hdev
      · exact decodes .turnOn ((rowOf_matchesFrame_iff _ F).mpr ⟨h0, h1, h2, h3, h4⟩)
      · exact decodes .turnOff ((rowOf_matchesFrame_iff _ F).mpr ⟨h0, h1, h2, h3, h4⟩)
    · have h2 := (and_houseBits_iff _).mpr ⟨b3, b1, b0, b2⟩
      obtain ⟨c, hc, h3⟩ := (mem_houseScopedCodes_iff _).mp hmem
      refine decodes c ((rowOf_matchesFrame_iff _ F).mpr ⟨h0, h1, ?_, ?_, h4⟩)
      · simpa [fixedHouseBits, hc] using h2
      · simpa [fixedCommandBits, hc] using BitVec.and_allOnes.trans h3

/-- Settles O13: the conditions of R95 by the entries, and the five frames by the pinned entries alone. -/
theorem specTablesWellFormed : Obligations.SpecTablesWellFormed := by
  refine ⟨tablesLegal_specTables, fun d => ?_, fun T hT => sourceFrames_of_pinned hT.pinned⟩
  cases d <;> rfl

/-- Settles O14: the operands of each OR have no common bit, so the frame determines every table entry. -/
theorem encoderInjectiveOnAnyTables : Obligations.EncoderInjectiveOnAnyTables := by
  intro T hT
  refine ⟨fun h h' d d' c c' F hn hn' he he' => encodeWith_inj hT hn hn' he he', fun h d c dc hdc => ⟨?_, ?_⟩,
    decodeFrameWith_eq_ok_iff hT⟩
  · exact toNat_or_of_disjoint (house_and_highByte hT hdc h)
  · exact toNat_or_of_disjoint (lowByte_and_command hT hdc)

/-- Settles O3: the words are those of the encoder. -/
theorem sampleWordsDecode : Obligations.SampleWordsDecode :=
  ⟨decode_encode rfl, decode_encode rfl, decode_encode rfl, decode_encode rfl, decode_encode rfl, decode_encode rfl⟩

/-- Settles O9, by the encoder's two ORs and the bytes of the frame they stand in. -/
theorem middleBytesAreOrs : Obligations.MiddleBytesAreOrs := by
  refine ⟨fun T h d c dc F hdc he => ?_, fun h => ?_⟩
  · obtain ⟨dc', hdc', rfl⟩ := (encodeWith_eq_ok_iff T h d c F).mp he
    cases hdc.symm.trans hdc'
    exact frameByte_middleFrame _ _
  · rw [houseCode_eq]
    exact ⟨BitVec.extractLsb'_append_eq_left, BitVec.extractLsb'_append_eq_right⟩

/-- Settles O12: the entries of the spec's tables, and the frames that they determine. -/
theorem sourceVectorsReproduced : Obligations.SourceVectorsReproduced :=
  ⟨⟨rfl, rfl, rfl, rfl, rfl, rfl, rfl, rfl, rfl, rfl⟩, sourceFrames_of_pinned tablesLegal_specTables.pinned⟩

/-- Settles O28: a line word's instruction is the signal of its two bits. -/
theorem lineWordIsLineState : Obligations.LineWordIsLineState := by
  intro v s hs hok
  exact ⟨_, (exec_decodeLine v s).trans (callSignal_ok _ hs hok), rfl, rfl⟩

end Sys2Proof.Proofs
end

/-! PROOFS. The statements of 40_frame_encoder.md: the encoder's frames are the layouts of R100, the machine over
open tables is the machine at the spec's tables, and the eight commands of family CMD. -/

namespace Sys2Proof.Machine

/-! ### Frames, byte by byte -/

theorem frameBytes_inj {F G : Frame} (h : frameBytes F = frameBytes G) : F = G := by
  simp only [frameBytes, List.cons.injEq, and_true] at h
  exact (frame_eq_frameOfBytes_iff.mpr h).trans (frameOfBytes_frameByte G)

theorem frameByte_xor (F G : Frame) (j : Nat) : frameByte (F ^^^ G) j = frameByte F j ^^^ frameByte G j :=
  BitVec.extractLsb'_xor

/-- Two frames of the encoder differ in their middle bytes only. -/
theorem middleFrame_xor (b2 b3 c2 c3 : Byte) :
    middleFrame b2 b3 ^^^ middleFrame c2 c3 = frameOfBytes 0 0 (b2 ^^^ c2) (b3 ^^^ c3) 0 := by
  obtain ⟨h0, h1, h2, h3, h4⟩ := frameByte_frameOfBytes 0xD5 0xAA b2 b3 0xAD
  obtain ⟨k0, k1, k2, k3, k4⟩ := frameByte_frameOfBytes 0xD5 0xAA c2 c3 0xAD
  simp only [middleFrame, frame_eq_frameOfBytes_iff, frameByte_xor, h0, h1, h2, h3, h4, k0, k1, k2, k3, k4]
  trivial

/-! ### The table entries as bits (R96 to R98) -/

/-- The high byte of a device code carries index bit 3. -/
theorem highByte_deviceCode (d : Device) :
    highByte (deviceCode d) = 0#4 ++ (0#1 ++ (deviceIndex d).extractLsb' 3 1 ++ 0#2) := by
  cases d <;> rfl

/-- The low byte of a device code carries index bits 2, 0 and 1. -/
theorem lowByte_deviceCode (d : Device) :
    lowByte (deviceCode d) = 0#1 ++ (deviceIndex d).extractLsb' 2 1 ++ 0#1 ++ (deviceIndex d).extractLsb' 0 1 ++
      (deviceIndex d).extractLsb' 1 1 ++ 0#3 := by
  cases d <;> rfl

theorem houseCode_or_highByte (h : House) (d : Device) : houseCode h ||| highByte (deviceCode d) =
    houseNibble h ++ (0#1 ++ (deviceIndex d).extractLsb' 3 1 ++ 0#2) := by
  rw [houseCode_eq, highByte_deviceCode, BitVec.or_append, BitVec.or_zero, BitVec.zero_or]

theorem lowByte_or_commandCode {c : Command} (hc : c.deviceScoped = true) (d : Device) :
    lowByte (deviceCode d) ||| commandCode c = 0#1 ++ (deviceIndex d).extractLsb' 2 1 ++ offBit c ++
      (deviceIndex d).extractLsb' 0 1 ++ (deviceIndex d).extractLsb' 1 1 ++ 0#3 := by
  cases c with
  | turnOn | turnOff => cases d <;> rfl
  | dim | bright | allOn | allOff | lampsOn | lampsOff => cases hc

/-- No device code has the bit that tells Off from On. -/
theorem lowByte_off_xor_on (d : Device) : (lowByte (deviceCode d) ||| commandCode .turnOff) ^^^
    (lowByte (deviceCode d) ||| commandCode .turnOn) = 0x20 := by
  cases d <;> rfl

theorem houseCode_bit_two (h : House) : (houseCode h).getLsbD 2 = false := by
  cases h <;> rfl

/-- Bit 0 of a command code is set for AllOn alone, and no device code sets it. -/
theorem lowByte_or_commandCode_bit_zero (d : Device) (c : Command) :
    (lowByte (deviceCode d) ||| commandCode c).getLsbD 0 = decide (c = .allOn) := by
  have hlow : (lowByte (deviceCode d)).getLsbD 0 = false := by cases d <;> rfl
  have hcode : (commandCode c).getLsbD 0 = decide (c = .allOn) := by cases c <;> rfl
  rw [BitVec.getLsbD_or, hlow, hcode, Bool.false_or]

/-- The low byte of a device code does not depend on index bit 3. -/
theorem lowByte_deviceCode_add_eight {d d' : Device} (h : deviceNumber d' = deviceNumber d + 8) :
    lowByte (deviceCode d') = lowByte (deviceCode d) := by
  have hindex : deviceIndex d' = deviceIndex d + 8 := BitVec.eq_of_toNat_eq (by
    rw [BitVec.toNat_add_of_lt (h ▸ (deviceIndex d').isLt)]
    exact h)
  have low (i : BitVec 4) : (i + 8).extractLsb' 2 1 = i.extractLsb' 2 1 ∧
      (i + 8).extractLsb' 1 1 = i.extractLsb' 1 1 ∧ (i + 8).extractLsb' 0 1 = i.extractLsb' 0 1 := by
    revert i; decide
  obtain ⟨h2, h1, h0⟩ := low (deviceIndex d)
  rw [lowByte_deviceCode, lowByte_deviceCode, hindex, h2, h1, h0]

/-! ### The encoder's frames are the layouts (R100, R131) -/

/-- The layout of the device-scoped commands as the two ORs of R92 and R93. -/
theorem deviceLayout_eq_middleFrame {c : Command} (hc : c.deviceScoped = true) (h : House) (d : Device) :
    deviceLayout (offBit c) h d =
      middleFrame (houseCode h ||| highByte (deviceCode d)) (lowByte (deviceCode d) ||| commandCode c) := by
  rw [houseCode_or_highByte, lowByte_or_commandCode hc]
  simp only [deviceLayout, middleFrame, frameOfBytes, BitVec.append_assoc, BitVec.cast_eq]
  rfl

theorem houseLayout_xor (code code' : Byte) (h : House) :
    houseLayout code h ^^^ houseLayout code' h = frameOfBytes 0 0 0 (code ^^^ code') 0 := by
  rw [houseLayout_eq_middleFrame, houseLayout_eq_middleFrame, middleFrame_xor, BitVec.xor_self]
  rfl

theorem deviceLayout_off_xor_on (h : House) (d : Device) :
    deviceLayout (offBit .turnOff) h d ^^^ deviceLayout (offBit .turnOn) h d = 0x0000002000 := by
  rw [deviceLayout_eq_middleFrame rfl, deviceLayout_eq_middleFrame rfl, middleFrame_xor, BitVec.xor_self,
    lowByte_off_xor_on]
  rfl

theorem encodeCommand_deviceScoped {c : Command} (hc : c.deviceScoped = true) (h : House) (d : Device) :
    encodeCommand h (some d) c = .ok (deviceLayout (offBit c) h d) := by
  rw [deviceLayout_eq_middleFrame hc]
  exact encodeWith_deviceScoped specTables hc h d

theorem encodeCommand_houseScoped {c : Command} (hc : c.deviceScoped = false) (h : House) (d : Option Device) :
    encodeCommand h d c = .ok (houseLayout (commandCode c) h) := by
  rw [houseLayout_eq_middleFrame, ← houseCode_eq]
  exact encodeWith_houseScoped specTables hc h d

theorem encodeWith_without_device (T : Tables) {c : Command} (hc : c.deviceScoped = true) (h : House) :
    encodeWith T h none c = .error .deviceRequired := by
  simpa [hc] using encodeWith_cases T h none c

theorem deviceScoped_iff (c : Command) : c.deviceScoped = true ↔ c = .turnOn ∨ c = .turnOff := by
  cases c <;> decide

theorem normalDevice_of_normalised {d : Option Device} {c : Command} (hn : Normalised d c) : normalDevice d c = d := by
  cases d <;> simp [normalDevice, ← hn]

/-- A frame of the encoder decodes to the normalised operands (R102). -/
theorem decodeFrame_of_encodeCommand {h : House} {d : Option Device} {c : Command} {F : Frame}
    (he : encodeCommand h d c = .ok F) : decodeFrame F = .ok (Instr.ofCommand h (normalDevice d c) c) := by
  cases hc : c.deviceScoped with
  | true =>
    cases d with
    | none => cases (encodeWith_without_device specTables hc h).symm.trans he
    | some dev =>
      cases (encodeCommand_deviceScoped hc h dev).symm.trans he
      simpa [normalDevice, hc] using decodeFrame_deviceLayout hc h dev
  | false =>
    cases (encodeCommand_houseScoped hc h d).symm.trans he
    simpa [normalDevice, hc] using decodeFrame_houseLayout hc h

/-- On normalised operands the algorithm and the layout give the same word. -/
theorem encodeCommand_agrees_with_encode {d : Option Device} {c : Command} (hn : Normalised d c) (h : House) :
    ∃ F, encodeCommand h d c = .ok F ∧ encode (Instr.ofCommand h d c) = some (frameBytes F) := by
  cases d with
  | none =>
    have hc : c.deviceScoped = false := hn.symm
    exact ⟨_, encodeCommand_houseScoped hc h none, encode_houseScoped hc h none⟩
  | some dev =>
    have hc : c.deviceScoped = true := hn.symm
    exact ⟨_, encodeCommand_deviceScoped hc h dev, encode_deviceScoped hc h (some dev)⟩

/-- A frame that decodes is the encoder's frame of normalised operands. -/
theorem encodeCommand_of_decodeFrame {F : Frame} {i : Instr} (hF : decodeFrame F = .ok i) :
    ∃ h d c, Normalised d c ∧ encodeCommand h d c = .ok F := by
  obtain ⟨c, -, rfl⟩ := (decodeFrame_eq_ok_iff F i).mp hF
  have hn : Normalised (if c.deviceScoped then some (frameDevice F) else none) c := by
    cases hc : c.deviceScoped <;> simp [Normalised, hc]
  obtain ⟨G, hG, hword⟩ := encodeCommand_agrees_with_encode hn (frameHouse F)
  have hbytes := hword.symm.trans (encode_of_decodeFrame hF)
  obtain rfl : G = F := frameBytes_inj (Option.some.inj hbytes)
  exact ⟨_, _, c, hn, hG⟩

theorem decodeFrame_ok_or_refused (F : Frame) :
    (∃ i, decodeFrame F = .ok i) ∨ decodeFrame F = .error (frameRefusal F) := by
  unfold decodeFrame
  split
  · exact .inl ⟨_, rfl⟩
  · exact .inr rfl

/-! ### The machine over the spec's tables (R8) -/

theorem decodeFrameWith_specTables (F : Frame) : decodeFrameWith specTables F = decodeFrame F := by
  obtain ⟨x, hn, he, hdec⟩ | ⟨hnone, hdec⟩ := decodeFrameWith_cases specTables F
  · rw [hdec, decodeFrame_of_encodeCommand he, normalDevice_of_normalised hn]
  · obtain ⟨i, hi⟩ | hrefused := decodeFrame_ok_or_refused F
    · obtain ⟨h, d, c, hn, he⟩ := encodeCommand_of_decodeFrame hi
      exact absurd he (hnone ⟨h, d, c⟩ hn)
    · rw [hdec, hrefused]

theorem decodeWith_specTables (bs : List Byte) : decodeWith specTables bs = decode bs := by
  unfold decodeWith
  split
  · exact decodeFrameWith_specTables _
  · rfl

theorem execWith_specTables (i : Instr) (s : State) : execWith specTables i s = exec i s := by
  obtain ⟨h, d, c, rfl⟩ | rfl | rfl | rfl | rfl := instr_cases i
  · rw [execWith_ofCommand, exec_ofCommand]
    rfl
  all_goals rfl

theorem performOpWith_specTables (op : CallerOp) (s : State) : performOpWith specTables op s = performOp op s := by
  cases op with
  | word bytes =>
    cases hdec : decode bytes with
    | ok i => simp [performOpWith, performOp, decodeWith_specTables, hdec, execWith_specTables]
    | error why => simp [performOpWith, performOp, decodeWith_specTables, hdec]
  | call i => exact execWith_specTables i s
  | sendBit b | sendByte v | transmit F | send h d c => rfl

theorem stepWith_specTables (s : State) : stepWith specTables s = step s := by
  cases hs : s.tx with
  | some tx => exact stepWith_running specTables hs
  | none =>
    cases hops : s.ops with
    | nil => simp [stepWith, hs, hops]
    | cons op rest => simp [stepWith, step_idle s hs, stepIdle, hs, hops, performOpWith_specTables]

/-! ### A command of family CMD (R130, R132) -/

theorem execWith_of_encodeWith_ok {T : Tables} {h : House} {d : Option Device} {c : Command} {F : Frame}
    (he : encodeWith T h d c = .ok F) (s : State) :
    execWith T (Instr.ofCommand h d c) s = .next (returned (.frame F) s) := by
  rw [execWith_ofCommand, returnEncodingWith_eq, he]

theorem execWith_of_encodeWith_error {T : Tables} {h : House} {d : Option Device} {c : Command} {e : OpError}
    (he : encodeWith T h d c = .error e) (s : State) :
    execWith T (Instr.ofCommand h d c) s = .next (returned (.err e) s) := by
  rw [execWith_ofCommand, returnEncodingWith_eq, he]

theorem exec_deviceScoped {c : Command} (hc : c.deviceScoped = true) (h : House) (d : Device) (s : State) :
    exec (Instr.ofCommand h (some d) c) s = .next (returned (.frame
      (middleFrame (houseCode h ||| highByte (deviceCode d)) (lowByte (deviceCode d) ||| commandCode c))) s) := by
  rw [← execWith_specTables]
  exact execWith_of_encodeWith_ok (encodeWith_deviceScoped specTables hc h d) s

theorem exec_without_device {c : Command} (hc : c.deviceScoped = true) (h : House) (s : State) :
    exec (Instr.ofCommand h none c) s = .next (returned (.err .deviceRequired) s) := by
  rw [← execWith_specTables]
  exact execWith_of_encodeWith_error (encodeWith_without_device specTables hc h) s

theorem exec_houseScoped {c : Command} (hc : c.deviceScoped = false) (h : House) (d : Option Device) (s : State) :
    exec (Instr.ofCommand h d c) s = .next (returned (.frame (middleFrame (houseCode h) (commandCode c))) s) := by
  rw [← execWith_specTables]
  exact execWith_of_encodeWith_ok (encodeWith_houseScoped specTables hc h d) s

theorem encodeCommand_ignores_device {c : Command} (hc : c.deviceScoped = false) (h : House) (d : Option Device) :
    encodeCommand h d c = encodeCommand h none c := by
  rw [encodeCommand_houseScoped hc, encodeCommand_houseScoped hc]

/-- The middle bytes of a house-scoped frame are the two table entries. -/
theorem frameByte_houseLayout (code : Byte) (h : House) :
    frameByte (houseLayout code h) 2 = houseCode h ∧ frameByte (houseLayout code h) 3 = code := by
  rw [houseLayout_eq_middleFrame, ← houseCode_eq]
  exact frameByte_middleFrame _ _

/-- `AllOn` alone sets bit 0 of B3 (R138). -/
theorem encodeCommand_bit_zero {h : House} {d : Option Device} {c : Command} {F : Frame}
    (he : encodeCommand h d c = .ok F) : (frameByte F 3).getLsbD 0 = decide (c = .allOn) := by
  obtain ⟨dc, hdc, rfl⟩ := (encodeWith_eq_ok_iff specTables h d c F).mp he
  rw [(frameByte_middleFrame _ _).2]
  obtain ⟨dev, -, -, rfl⟩ | ⟨-, rfl⟩ := selectDeviceCode_ok_cases hdc
  · exact lowByte_or_commandCode_bit_zero dev c
  · exact lowByte_or_commandCode_bit_zero .d1 c

end Sys2Proof.Machine

namespace Sys2Proof.Proofs

open Sys2Proof.Machine

/-- Settles O6: a frame of the encoder decodes, so it matches a row; a frame that matches a row decodes, and the
encoder gives it for what it decodes to. -/
theorem encoderImageIsOpcodeMap : Obligations.EncoderImageIsOpcodeMap := by
  intro F
  constructor
  · rintro ⟨h, d, c, he⟩
    obtain ⟨r, hr, hm, -⟩ := decodeFrame_ok (decodeFrame_of_encodeCommand he)
    exact ⟨r, hr, hm⟩
  · rintro ⟨r, hr, hm⟩
    obtain ⟨i, hi⟩ := decodeFrame_of_matches hr hm
    obtain ⟨h, d, c, -, he⟩ := encodeCommand_of_decodeFrame hi
    exact ⟨h, d, c, he⟩

/-- Settles O7: the table entries are the fields of the layouts, and the search over the normalised inputs finds
what the bit fields say. -/
theorem algorithmAgreesWithLayout : Obligations.AlgorithmAgreesWithLayout :=
  ⟨fun h _ _ hn => encodeCommand_agrees_with_encode hn h, decodeWith_specTables, execWith_specTables,
    stepWith_specTables⟩

/-- Settles O8: the encoder's frame is five bytes of which the tables give only the middle two. -/
theorem frameShape : Obligations.FrameShape := by
  intro T h d c F he
  obtain ⟨dc, -, rfl⟩ := (encodeWith_eq_ok_iff T h d c F).mp he
  obtain ⟨h0, h1, -, -, h4⟩ := frameByte_frameOfBytes 0xD5 0xAA (houseByte T h dc) (deviceCommandByte T c dc) 0xAD
  exact ⟨rfl, h0, h1, h4⟩

/-- Settles O10, by the three cases of the encoder. -/
theorem deviceRequiredExactly : Obligations.DeviceRequiredExactly := by
  intro T h d c
  rw [← deviceScoped_iff]
  obtain ⟨hc, rfl, e⟩ | ⟨dev, hc, rfl, e⟩ | ⟨hc, e⟩ := encodeWith_cases T h d c
  all_goals simp [e, hc, eq_comm]

/-- Settles O11: the frame is the layout without a device. -/
theorem houseScopedIgnoresDevice : Obligations.HouseScopedIgnoresDevice :=
  fun h d _ hc => ⟨encodeCommand_ignores_device hc h d, _, encodeCommand_houseScoped hc h d, frameByte_houseLayout _ h⟩

/-- Settles O15, by the layout of the device-scoped commands; the corner cases by the bits of a device code. -/
theorem onReturnsItsFrame : Obligations.OnReturnsItsFrame := by
  refine ⟨fun h d s => ?_, exec_without_device (c := .turnOn) rfl,
    fun h d => ⟨_, encodeCommand_deviceScoped rfl h d, deviceLayout_and_mask _ h d, decodeFrame_deviceLayout rfl h d⟩,
    fun h => ?_, rfl, fun d => ?_, fun d d' => lowByte_deviceCode_add_eight, rfl, rfl⟩
  · have hexec := exec_deviceScoped (c := .turnOn) rfl h d s
    have hcode : commandCode .turnOn = 0#8 := rfl
    rwa [hcode, BitVec.or_zero] at hexec
  · have hframe := encodeWith_deviceScoped specTables (c := .turnOn) rfl h .d1
    have hhigh : highByte (specTables.device .d1) = 0#8 := rfl
    rwa [hhigh, BitVec.or_zero] at hframe
  · cases d <;> rfl

/-- Settles O16, by the layout of the device-scoped commands, in which one bit tells `OFF` from `ON`. -/
theorem offReturnsItsFrame : Obligations.OffReturnsItsFrame :=
  ⟨exec_deviceScoped (c := .turnOff) rfl, exec_without_device (c := .turnOff) rfl,
    fun h d => ⟨_, _, encodeCommand_deviceScoped rfl h d, deviceLayout_and_mask _ h d, decodeFrame_deviceLayout rfl h d,
      encodeCommand_deviceScoped rfl h d, deviceLayout_off_xor_on h d⟩,
    rfl, rfl⟩

/-- Settles O17, by the layout of the house-scoped commands. -/
theorem dimReturnsItsFrame : Obligations.DimReturnsItsFrame := by
  refine ⟨exec_houseScoped (c := .dim) rfl, fun h d => ⟨_, encodeCommand_houseScoped rfl h d, houseLayout_and_mask _ h,
    decodeFrame_houseLayout rfl h, ?_, encodeCommand_ignores_device rfl h d⟩, rfl⟩
  rw [(frameByte_houseLayout _ h).1]
  exact houseCode_bit_two h

/-- Settles O18, by the layout of the house-scoped commands: two such frames of a house differ as the codes do. -/
theorem brightReturnsItsFrame : Obligations.BrightReturnsItsFrame :=
  ⟨exec_houseScoped (c := .bright) rfl,
    fun h d => ⟨_, _, encodeCommand_houseScoped rfl h d, houseLayout_and_mask _ h, decodeFrame_houseLayout rfl h,
      encodeCommand_houseScoped rfl h d, houseLayout_xor _ _ h⟩,
    rfl⟩

/-- Settles O19, by the layout of the house-scoped commands and bit 0 of the command codes. -/
theorem allOnReturnsItsFrame : Obligations.AllOnReturnsItsFrame :=
  ⟨exec_houseScoped (c := .allOn) rfl,
    fun h d => ⟨_, encodeCommand_houseScoped rfl h d, houseLayout_and_mask _ h, decodeFrame_houseLayout rfl h,
      encodeCommand_ignores_device rfl h d⟩,
    fun _ _ _ _ => encodeCommand_bit_zero, rfl⟩

/-- Settles O20, by the layout of the house-scoped commands and the two frames of house M. -/
theorem allOffReturnsItsFrame : Obligations.AllOffReturnsItsFrame :=
  ⟨exec_houseScoped (c := .allOff) rfl,
    fun h d => ⟨_, encodeCommand_houseScoped rfl h d, houseLayout_and_mask _ h, decodeFrame_houseLayout rfl h⟩,
    rfl, 0xD5AA0080AD, 0xD5AA0000AD, rfl, rfl, rfl⟩

/-- Settles O21, by the layout of the house-scoped commands: two such frames of a house differ as the codes do. -/
theorem lampsOnReturnsItsFrame : Obligations.LampsOnReturnsItsFrame :=
  ⟨exec_houseScoped (c := .lampsOn) rfl,
    fun h d => ⟨_, _, _, encodeCommand_houseScoped rfl h d, houseLayout_and_mask _ h, decodeFrame_houseLayout rfl h,
      encodeCommand_houseScoped rfl h d, houseLayout_xor _ _ h, encodeCommand_houseScoped rfl h d,
      houseLayout_xor _ _ h⟩,
    rfl⟩

/-- Settles O22, by the layout of the house-scoped commands. -/
theorem lampsOffReturnsItsFrame : Obligations.LampsOffReturnsItsFrame :=
  ⟨exec_houseScoped (c := .lampsOff) rfl,
    fun h d => ⟨_, encodeCommand_houseScoped rfl h d, houseLayout_and_mask _ h, decodeFrame_houseLayout rfl h,
      encodeCommand_ignores_device rfl h d⟩,
    rfl⟩

/-- Settles O23: the encoder's answer reads the tables and the operands only, and handing it over is `returned`. -/
theorem encoderIsPure : Obligations.EncoderIsPure := by
  refine ⟨fun h d c => ?_, fun T h d c s =>
    ⟨fun F he => execWith_of_encodeWith_ok he s, fun e he => execWith_of_encodeWith_error he s⟩⟩
  cases he : encodeCommand h d c with
  | ok F => exact ⟨.frame F, fun s => (execWith_specTables _ s).symm.trans (execWith_of_encodeWith_ok he s)⟩
  | error e => exact ⟨.err e, fun s => (execWith_specTables _ s).symm.trans (execWith_of_encodeWith_error he s)⟩

end Sys2Proof.Proofs

/-! PROOFS. The statements of 41_line_signaler.md: the four line signals, their places in the schedule, and
`SENDBIT`. -/

namespace Sys2Proof.Machine

/-! ### A signal asked for by the caller -/

theorem callSignal_fail (l : Line) {s : State} {e : IoError} {left : Line} (hs : s.tx = none)
    (hf : answerAt s 0 = .fail e left) : callSignal l s = .next (afterFailedSignal l e left s) := by
  obtain ⟨tx, htx, -⟩ | ⟨-, hok, -⟩ | ⟨io, left', -, hf', heq⟩ := callSignal_cases l s
  · cases hs.symm.trans htx
  · cases hok.symm.trans hf
  · cases hf'.symm.trans hf
    exact heq

/-! ### The signals in the schedule -/

theorem bitLine_ne_resetLine (b : Bool) : bitLine b ≠ resetLine := by cases b <;> decide

theorem bitLine_ne_standbyLine (b : Bool) : bitLine b ≠ standbyLine := by cases b <;> decide

theorem resetLine_ne_standbyLine : resetLine ≠ standbyLine := by decide

/-- The schedule clears both lines first and last, and nowhere between (R203). -/
theorem entry_write_resetLine_iff (F : Frame) (i : Nat) :
    entry i F = some (.write resetLine) ↔ i = 0 ∨ i = 166 := by
  constructor
  · intro h
    obtain ⟨hi, -⟩ | ⟨-, hl⟩ | ⟨k, -, -, hl⟩ | ⟨k, -, -, hl⟩ | ⟨hi, -⟩ := entry_write_cases h
    · exact .inl hi
    · exact absurd hl resetLine_ne_standbyLine
    · exact absurd hl.symm (bitLine_ne_resetLine _)
    · exact absurd hl resetLine_ne_standbyLine
    · exact .inr hi
  · rintro (rfl | rfl) <;> rfl

/-- The schedule asserts both lines once before the bit window, and as the second half of every bit (R203). -/
theorem entry_write_standbyLine_iff (F : Frame) (i : Nat) :
    entry i F = some (.write standbyLine) ↔ i = 2 ∨ ∃ k, k < 40 ∧ i = 7 + 4 * k := by
  constructor
  · intro h
    obtain ⟨-, hl⟩ | ⟨hi, -⟩ | ⟨k, -, -, hl⟩ | ⟨k, hk, hi, -⟩ | ⟨-, hl⟩ := entry_write_cases h
    · exact absurd hl.symm resetLine_ne_standbyLine
    · exact .inl hi
    · exact absurd hl.symm (bitLine_ne_standbyLine _)
    · exact .inr ⟨k, hk, hi⟩
    · exact absurd hl.symm resetLine_ne_standbyLine
  · rintro (rfl | ⟨k, hk, rfl⟩)
    · rfl
    · rw [show 7 + 4 * k = 5 + 4 * k + 2 by omega]
      exact entry_bit F hk (by omega)

/-- In a transmission a bit's signal finds the lines at standby, whichever the bit. -/
theorem lastWrite_of_entry_write_bitLine {F : Frame} {i : Nat} {b : Bool}
    (h : entry i F = some (.write (bitLine b))) : lastWrite F i = some standbyLine := by
  obtain ⟨-, hl, -⟩ | ⟨-, hl, -⟩ | ⟨k, -, -, -, hlast⟩ | ⟨k, -, -, hl, -⟩ | ⟨-, hl, -⟩ :=
    entry_write_lastWrite_cases h
  · exact absurd hl (bitLine_ne_resetLine b)
  · exact absurd hl (bitLine_ne_standbyLine b)
  · exact hlast
  · exact absurd hl (bitLine_ne_standbyLine b)
  · exact absurd hl (bitLine_ne_resetLine b)

/-! ### `SENDBIT` -/

theorem sendBits_singleton (b : Bool) (s : State) : sendBits [b] s = sendBit b s := by
  rw [sendBits]
  obtain ⟨s', _ | e⟩ := sendBit b s <;> rfl

/-- `SENDBIT` without a fault: its two writes, each with its settle, and the lines are left at standby (R180). -/
theorem callSendBit_ok {b : Bool} {s : State} (hs : s.tx = none) (h0 : answerAt s 0 = .ok)
    (h1 : answerAt s 1 = .ok) : callSendBit b s = .next
      { s with line := standbyLine, result := some .ok, answers := s.answers.drop 2, asked := s.asked + 2,
               trace := s.trace ++ bitEvents b } := by
  rw [callSendBit, whenIdle_idle s _ hs, sendBit_ok b s h0 h1]
  rfl

/-- `SENDBIT` whose write number `n` is the first to fail: nothing comes after it, and the caller receives the
error (R180). -/
theorem callSendBit_fail {b : Bool} {s : State} {n : Nat} {l : Line} {e : IoError} {left : Line}
    (hs : s.tx = none) (hl : (linesOfBits [b])[n]? = some l) (hok : NoWriteFails n s)
    (hf : answerAt s n = .fail e left) : callSendBit b s = .next
      { s with line := left, result := some (.err (.ioError e)),
               answers := s.answers.drop (n + 1), asked := s.asked + (n + 1),
               trace := s.trace ++ settledWrites ((linesOfBits [b]).take n) ++ [.failed l e] } := by
  rw [callSendBit, whenIdle_idle s _ hs, ← sendBits_singleton, sendBits_fail _ s n l e left hl hok hf,
    finishSignal_fail]
  exact congrArg Host.Outcome.next (raise_ioError_idle e _ hs)

theorem noWriteFails_zero (s : State) : NoWriteFails 0 s := fun _ hk => absurd hk (Nat.not_lt_zero _)

theorem noWriteFails_one {s : State} (h0 : answerAt s 0 = .ok) : NoWriteFails 1 s := fun k hk => by
  obtain rfl : k = 0 := by omega
  exact h0

end Sys2Proof.Machine

namespace Sys2Proof.Proofs

open Sys2Proof.Machine

/-- Settles O24, by the two answers to a line write and the writes of the schedule. -/
theorem resetClearsBothLines : Obligations.ResetClearsBothLines :=
  ⟨rfl, fun _ hs hok => callSignal_ok resetLine hs hok, fun _ _ _ hs hf => callSignal_fail resetLine hs hf,
    entry_write_resetLine_iff⟩

/-- Settles O25, by the two answers to a line write and the writes of the schedule. -/
theorem standbyAssertsBothLines : Obligations.StandbyAssertsBothLines :=
  ⟨rfl, fun _ hs hok => callSignal_ok standbyLine hs hok, fun _ _ _ hs hf => callSignal_fail standbyLine hs hf,
    entry_write_standbyLine_iff⟩

/-- Settles O26, by the two answers to a line write and the line value that a bit of the schedule overwrites. -/
theorem bitOneAssertsRts : Obligations.BitOneAssertsRts :=
  ⟨rfl, fun _ hs hok => callSignal_ok (bitLine true) hs hok,
    fun _ _ _ hs hf => callSignal_fail (bitLine true) hs hf,
    fun _ _ hen => lastWrite_of_entry_write_bitLine (b := true) hen⟩

/-- Settles O27, by the two answers to a line write and the line value that a bit of the schedule overwrites. -/
theorem bitZeroAssertsDtr : Obligations.BitZeroAssertsDtr :=
  ⟨rfl, fun _ hs hok => callSignal_ok (bitLine false) hs hok,
    fun _ _ _ hs hf => callSignal_fail (bitLine false) hs hf,
    fun _ _ hen => lastWrite_of_entry_write_bitLine (b := false) hen⟩

/-- Settles O30, by which of the two writes is the first to fail. -/
theorem sendBitIsBitThenStandby : Obligations.SendBitIsBitThenStandby := by
  intro b s hs
  refine ⟨fun h0 h1 => callSendBit_ok hs h0 h1, fun e left hf => ?_, fun e left h0 hf => ?_⟩
  · rw [callSendBit_fail (l := bitLine b) hs rfl (noWriteFails_zero s) hf]
    simp [afterFailedSignal, settledWrites, bitLine]
  · rw [callSendBit_fail (l := standbyLine) hs rfl (noWriteFails_one h0) hf]
    simp [settledWrites, linesOfBits, standbyLine]

end Sys2Proof.Proofs

/-! PROOFS. The statements of 42_frame_transmitter.md: the schedule and its trace, the dongle's reading of it, and the
transmission step by step. -/

namespace Sys2Proof.Machine

/-! ### The schedule (R203) -/

theorem entry_last_settle (F : Frame) : entry 167 F = some (.wait .settle) := rfl

theorem entry_final_reset (F : Frame) : entry 166 F = some (.write resetLine) := rfl

theorem entry_disarm_wait (F : Frame) : entry 165 F = some (.wait .command) := rfl

theorem entry_eq_none {i : Nat} (hi : 168 ≤ i) (F : Frame) : entry i F = none := by
  have hsome := entry_isSome i F
  rwa [decide_eq_false (by omega), Option.isSome_eq_false_iff, Option.isNone_iff_eq_none] at hsome

/-- Of a bit, only its signal depends on the frame. -/
theorem bitEntry_eq (F G : Frame) (k : Nat) {j : Nat} (hj : j ≠ 0) : bitEntry F k j = bitEntry G k j := by
  match j with
  | 0 => exact absurd rfl hj
  | 1 | 2 | j + 3 => rfl

/-- Only the entries of the forty bit signals depend on the frame. -/
theorem entry_eq_of_not_bit_signal {i : Nat} (hi : ∀ k, k < 40 → i ≠ 5 + 4 * k) (F G : Frame) :
    entry i F = entry i G := by
  by_cases hw : 5 ≤ i ∧ i < 165
  · obtain ⟨k, j, hk, hj, rfl⟩ := bit_window hw.1 hw.2
    rw [entry_bit F hk hj, entry_bit G hk hj, bitEntry_eq F G k (fun h0 => hi k hk (by omega))]
  · obtain hlow | hhigh : i < 5 ∨ ¬ i < 165 := by omega
    · interval_cases i <;> rfl
    · simp only [entry, if_neg hhigh]

/-- Whatever the frame, an entry is the same wait, or a write, or there is none (R219). -/
theorem entry_kind_cases (i : Nat) (F G : Frame) :
    (∃ k, entry i F = some (.wait k) ∧ entry i G = some (.wait k)) ∨
    (∃ l l', entry i F = some (.write l) ∧ entry i G = some (.write l')) ∨
    (entry i F = none ∧ entry i G = none) := by
  by_cases hi : ∃ k, k < 40 ∧ i = 5 + 4 * k
  · obtain ⟨k, hk, rfl⟩ := hi
    exact .inr (.inl ⟨_, _, entry_bit F hk (by omega : 0 < 4), entry_bit G hk (by omega : 0 < 4)⟩)
  · rw [entry_eq_of_not_bit_signal (by simpa using hi) G F]
    cases entry i F with
    | none => exact .inr (.inr ⟨rfl, rfl⟩)
    | some en =>
      cases en with
      | wait k => exact .inl ⟨k, rfl, rfl⟩
      | write l => exact .inr (.inl ⟨l, l, rfl, rfl⟩)

/-- The last entry is a delay, so no write completes the schedule. -/
theorem succ_ne_168_of_write {i : Nat} {F : Frame} {l : Line} (h : entry i F = some (.write l)) : i + 1 ≠ 168 := by
  intro hi
  obtain rfl : i = 167 := by omega
  cases (entry_last_settle F).symm.trans h

/-! ### The trace of the schedule (R218) -/

theorem scheduleTrace_168 (F : Frame) : scheduleTrace F 168 = closedTrace F := by
  rw [scheduleTrace_succ F _ _ (entry_last_settle F), scheduleTrace_succ F _ _ (entry_final_reset F),
    scheduleTrace_succ F _ _ (entry_disarm_wait F), scheduleTrace_bits F 40 le_rfl]
  simp [closedTrace, wireBits, Entry.event, DelayKind.event]

theorem writtenLines_failed (l : Line) (e : IoError) : writtenLines [.failed l e] = [] := rfl

/-- The line values of the arm sequence and the bits below `k`. -/
theorem writtenLines_scheduleTrace_bits (F : Frame) {k : Nat} (hk : k ≤ 40) :
    writtenLines (scheduleTrace F (5 + 4 * k)) = resetLine :: standbyLine ::
      ((List.range k).map (wireBit F)).flatMap fun b => [bitLine b, standbyLine] := by
  rw [scheduleTrace_bits F k hk, writtenLines_append, writtenLines_bitEvents]
  rfl

/-- At the standby of bit number `k` its signal has been written too. -/
theorem writtenLines_scheduleTrace_bit_standby (F : Frame) {k : Nat} (hk : k < 40) :
    writtenLines (scheduleTrace F (7 + 4 * k)) =
      writtenLines (scheduleTrace F (5 + 4 * k)) ++ [bitLine (wireBit F k)] := by
  have hsignal : entry (5 + 4 * k) F = some (.write (bitLine (wireBit F k))) := entry_bit F hk (by omega : 0 < 4)
  have hsettle : entry (5 + 4 * k + 1) F = some (.wait .settle) := entry_bit F hk (by omega)
  rw [show 7 + 4 * k = 5 + 4 * k + 1 + 1 by omega, scheduleTrace_succ F _ _ hsettle, scheduleTrace_succ F _ _ hsignal,
    List.append_assoc, writtenLines_append]
  rfl

/-- The disarm wait writes nothing. -/
theorem writtenLines_scheduleTrace_final_reset (F : Frame) :
    writtenLines (scheduleTrace F 166) = writtenLines (scheduleTrace F (5 + 4 * 40)) := by
  rw [scheduleTrace_succ F _ _ (entry_disarm_wait F), writtenLines_append]
  exact List.append_nil _

theorem writtenLines_closedTrace (F : Frame) : writtenLines (closedTrace F) =
    resetLine :: standbyLine :: (((wireBits F).flatMap fun b => [bitLine b, standbyLine]) ++ [resetLine]) := by
  rw [closedTrace, writtenLines_append, writtenLines_append, writtenLines_bitEvents]
  rfl

/-- `w(i)` counts the write events of the entries below `i` (R316). -/
theorem writesBelow_eq_length (F : Frame) (i : Nat) :
    writesBelow F i = (writtenLines (scheduleTrace F i)).length := by
  induction i with
  | zero => rfl
  | succ i ih =>
    cases hen : entry i F with
    | none => simpa [writesBelow, scheduleTrace, List.range_succ, hen] using ih
    | some en =>
      rw [scheduleTrace_succ F i en hen, writtenLines_append, List.length_append, ← ih]
      cases en with
      | wait k => rw [writesBelow_succ_wait F i k hen]; cases k <;> rfl
      | write l => rw [writesBelow_succ_write F i l hen]; rfl

theorem writesBelow_168 (F : Frame) : writesBelow F 168 = 83 := by
  rw [writesBelow_eq_length, scheduleTrace_168, writtenLines_closedTrace]
  rfl

theorem lastWrite_168 (F : Frame) : lastWrite F 168 = some resetLine := by
  rw [lastWrite_succ_wait F _ _ (entry_last_settle F), lastWrite_succ_write F _ _ (entry_final_reset F)]

/-! ### The counts of the trace (R217) -/

theorem length_wireBits (F : Frame) : (wireBits F).length = 40 := rfl

theorem count_flatMap_of_const {α β : Type} [BEq β] {l : List α} {f : α → List β} {x : β} {n : Nat}
    (hf : ∀ a, (f a).count x = n) : (l.flatMap f).count x = n * l.length := by
  simp [List.count_flatMap, Function.comp_def, hf, Nat.mul_comm]

theorem count_settled_closedTrace (F : Frame) : (closedTrace F).count .settled = 83 := by
  rw [closedTrace, List.count_append, List.count_append,
    count_flatMap_of_const (n := 2) fun b => by cases b <;> rfl]
  rfl

theorem count_commandWaited_closedTrace (F : Frame) : (closedTrace F).count .commandWaited = 2 := by
  rw [closedTrace, List.count_append, List.count_append,
    count_flatMap_of_const (n := 0) fun b => by cases b <;> rfl]
  rfl

theorem length_closedTrace (F : Frame) : (closedTrace F).length = 168 := by
  simp [closedTrace, List.length_flatMap, bitEvents, length_wireBits]

theorem length_writtenLines_closedTrace (F : Frame) : (writtenLines (closedTrace F)).length = 83 := by
  rw [writtenLines_closedTrace]
  rfl

/-- Beside the forty bits a transmission writes reset, standby and reset. -/
theorem count_writtenLines_closedTrace (F : Frame) (l : Line) : (writtenLines (closedTrace F)).count l =
    [resetLine, standbyLine, resetLine].count l +
      ((wireBits F).flatMap fun b => [bitLine b, standbyLine]).count l := by
  simp only [writtenLines_closedTrace, List.count_cons, List.count_append, List.count_nil]
  omega

theorem count_bitLine_flatMap (b : Bool) (bs : List Bool) :
    (bs.flatMap fun a => [bitLine a, standbyLine]).count (bitLine b) = bs.count b := by
  induction bs with
  | nil => rfl
  | cons a bs ih =>
    have hone : [bitLine a, standbyLine].count (bitLine b) = [a].count b := by cases a <;> cases b <;> rfl
    rw [List.flatMap_cons, List.count_append, hone, ih, ← List.count_append, List.singleton_append]

theorem count_bitLine_closedTrace (F : Frame) (b : Bool) :
    (writtenLines (closedTrace F)).count (bitLine b) = (wireBits F).count b := by
  have hnone : [resetLine, standbyLine, resetLine].count (bitLine b) = 0 := by cases b <;> rfl
  rw [count_writtenLines_closedTrace, hnone, count_bitLine_flatMap, Nat.zero_add]

theorem count_resetLine_closedTrace (F : Frame) : (writtenLines (closedTrace F)).count resetLine = 2 := by
  rw [count_writtenLines_closedTrace, count_flatMap_of_const (n := 0) fun b => by cases b <;> rfl]
  rfl

theorem count_standbyLine_closedTrace (F : Frame) : (writtenLines (closedTrace F)).count standbyLine = 41 := by
  rw [count_writtenLines_closedTrace, count_flatMap_of_const (n := 1) fun b => by cases b <;> rfl]
  rfl

/-- The least duration of a trace is that of its delays (R221, R315). -/
theorem leastDuration_eq (t : Timing) (tr : List Event) :
    leastDuration t tr = tr.count .settled * t.settle + tr.count .commandWaited * t.command := by
  induction tr with
  | nil => simp [leastDuration]
  | cons ev tr ih =>
    have hcons : leastDuration t (ev :: tr) = eventDuration t ev + leastDuration t tr := rfl
    rw [hcons, ih]
    cases ev <;> simp [eventDuration, Nat.add_mul] <;> omega

theorem leastDuration_scheduleTrace (t : Timing) (F : Frame) :
    leastDuration t (scheduleTrace F 168) = 83 * t.settle + 2 * t.command := by
  rw [scheduleTrace_168, leastDuration_eq, count_settled_closedTrace, count_commandWaited_closedTrace]

/-! ### The bits of a frame (R64) -/

/-- Shifting the next bit on the wire into the leading `k` bits of a frame gives its leading `k + 1` bits. -/
theorem shiftConcat_ushiftRight (F : Frame) {k : Nat} (hk : k < 40) :
    (F >>> (40 - k)).shiftConcat (wireBit F k) = F >>> (40 - (k + 1)) := by
  apply BitVec.eq_of_getLsbD_eq
  intro i hi
  rw [BitVec.getLsbD_shiftConcat, BitVec.getLsbD_ushiftRight, decide_eq_true hi, Bool.true_and]
  cases i with
  | zero => simp [wireBit]
  | succ i =>
    rw [if_neg (Nat.succ_ne_zero i), BitVec.getLsbD_ushiftRight]
    congr 1
    omega

theorem frameOfBits_range (F : Frame) {k : Nat} (hk : k ≤ 40) :
    frameOfBits ((List.range k).map (wireBit F)) = F >>> (40 - k) := by
  induction k with
  | zero => exact (BitVec.ushiftRight_eq_zero (le_refl 40)).symm
  | succ k ih =>
    have ih := ih (by omega)
    rw [← shiftConcat_ushiftRight F hk, ← ih]
    simp [frameOfBits, List.range_succ]

/-- The forty bits in wire order spell the frame. -/
theorem frameOfBits_wireBits (F : Frame) : frameOfBits (wireBits F) = F :=
  frameOfBits_range F (le_refl 40)

/-! ### The one bits of a frame (R217) -/

/-- How many bits of a byte are signalled by `BIT1`. -/
def oneBits (b : Byte) : Nat := (byteBits b).count true

theorem oneBits_le (b : Byte) : oneBits b ≤ 8 := List.count_le_length

theorem byteBits_frameByte (F : Frame) {j : Nat} (hj : j < 5) :
    byteBits (frameByte F j) = (List.range 8).map fun m => wireBit F (8 * j + m) := by
  refine List.map_congr_left fun m hm => ?_
  have hm := List.mem_range.mp hm
  rw [frameByte, wireBit, BitVec.getLsbD_extractLsb', decide_eq_true (by omega), Bool.true_and]
  congr 1
  omega

/-- The bits on the wire are those of the five bytes, byte 0 first (R63, R64). -/
theorem wireBits_eq_flatMap (F : Frame) : wireBits F = (frameBytes F).flatMap byteBits := by
  simp only [frameBytes, List.flatMap_cons, List.flatMap_nil, byteBits_frameByte F (by omega : 0 < 5),
    byteBits_frameByte F (by omega : 1 < 5), byteBits_frameByte F (by omega : 2 < 5),
    byteBits_frameByte F (by omega : 3 < 5), byteBits_frameByte F (by omega : 4 < 5)]
  rfl

theorem wireBits_middleFrame (b2 b3 : Byte) :
    wireBits (middleFrame b2 b3) = [0xD5, 0xAA, b2, b3, 0xAD].flatMap byteBits := by
  rw [wireBits_eq_flatMap, middleFrame, frameBytes_frameOfBytes]

theorem count_true_flatMap_byteBits (bs : List Byte) : (bs.flatMap byteBits).count true = (bs.map oneBits).sum :=
  List.count_flatMap

/-- The header and the footer have fourteen one bits. -/
theorem count_true_middleFrame (b2 b3 : Byte) :
    (wireBits (middleFrame b2 b3)).count true = 14 + oneBits b2 + oneBits b3 := by
  have hheader : oneBits 0xD5 = 5 ∧ oneBits 0xAA = 4 ∧ oneBits 0xAD = 5 := by decide
  obtain ⟨h0, h1, h4⟩ := hheader
  simp only [wireBits_middleFrame, count_true_flatMap_byteBits, List.map_cons, List.map_nil, List.sum_cons,
    List.sum_nil, h0, h1, h4]
  omega

theorem header_footer_middleFrame (b2 b3 : Byte) :
    (wireBits (middleFrame b2 b3)).take 16 ++ (wireBits (middleFrame b2 b3)).drop 32 =
      [0xD5, 0xAA, 0xAD].flatMap byteBits := by
  rw [wireBits_middleFrame]
  rfl

theorem eq_middleFrame {F : Frame} (h0 : frameByte F 0 = 0xD5) (h1 : frameByte F 1 = 0xAA)
    (h4 : frameByte F 4 = 0xAD) : F = middleFrame (frameByte F 2) (frameByte F 3) :=
  frame_eq_frameOfBytes_iff.mpr ⟨h0, h1, rfl, rfl, h4⟩

/-- A house code has at most four one bits, the high byte of a device code at most one. -/
theorem oneBits_houseCode_or_highByte (h : House) (d : Device) :
    oneBits (houseCode h ||| highByte (deviceCode d)) ≤ 5 := by
  have all : ∀ h ∈ allHouses, ∀ d ∈ allDevices, oneBits (houseCode h ||| highByte (deviceCode d)) ≤ 5 := by decide
  exact all h (mem_allHouses h) d (mem_allDevices d)

/-- The low byte of a device code has at most three one bits, and Off adds one. -/
theorem oneBits_lowByte_or_commandCode {c : Command} (hc : c.deviceScoped = true) (d : Device) :
    oneBits (lowByte (deviceCode d) ||| commandCode c) ≤ 4 := by
  have all : ∀ c ∈ allCommands, c.deviceScoped = true → ∀ d ∈ allDevices,
      oneBits (lowByte (deviceCode d) ||| commandCode c) ≤ 4 := by decide
  exact all c (mem_allCommands c) hc d (mem_allDevices d)

theorem oneBits_houseCode (h : House) : oneBits (houseCode h) ≤ 4 := by
  cases h <;> decide

theorem oneBits_commandCode (c : Command) : oneBits (commandCode c) ≤ 3 := by
  cases c <;> decide

/-- The middle bytes of an encoder's frame have at most nine one bits (R96 to R98). -/
theorem count_true_encodeCommand {h : House} {d : Option Device} {c : Command} {F : Frame}
    (he : encodeCommand h d c = .ok F) : 14 ≤ (wireBits F).count true ∧ (wireBits F).count true ≤ 23 := by
  obtain ⟨-, -, e⟩ | ⟨dev, hc, rfl, e⟩ | ⟨hc, e⟩ := encodeWith_cases specTables h d c
  all_goals cases e.symm.trans he
  all_goals rw [count_true_middleFrame]
  · have hhouse := oneBits_houseCode_or_highByte h dev
    have hcommand := oneBits_lowByte_or_commandCode hc dev
    simp only [specTables]
    omega
  · have hhouse := oneBits_houseCode h
    have hcommand := oneBits_commandCode c
    simp only [specTables]
    omega

/-! ### The dongle's reading (R224) -/

/-- After the arm sequence, the reading takes the bits off and continues with what comes after them. -/
theorem rxRead_of_writtenLines {t : List Event} {bs : List Bool} {rest : List Line}
    (h : writtenLines t =
      resetLine :: standbyLine :: ((bs.flatMap fun b => [bitLine b, standbyLine]) ++ rest)) :
    rxRead t = (rxTail rest).map fun r => (bs ++ r.1, r.2) := by
  simp only [rxRead, h, and_self, if_true, rxTail_bits]

theorem rxRead_closedTrace (F : Frame) : rxRead (closedTrace F) = some (wireBits F, true) := by
  rw [rxRead_of_writtenLines (writtenLines_closedTrace F)]
  simp [rxTail]

theorem rxFrame_closedTrace (F : Frame) : rxFrame (closedTrace F) = some F := by
  simp only [rxFrame, rxRead_closedTrace, length_wireBits, if_true, frameOfBits_wireBits]

/-- A reading without the final reset is no complete frame. -/
theorem rxFrame_eq_none {t : List Event} (h : ∀ bs, rxRead t ≠ some (bs, true)) : rxFrame t = none := by
  unfold rxFrame
  split
  next bs hread => exact absurd hread (h bs)
  next => rfl

theorem rxRead_of_bits {F : Frame} {t : List Event} {k : Nat} {rest : List Line} (hk : k ≤ 40)
    (h : writtenLines t = writtenLines (scheduleTrace F (5 + 4 * k)) ++ rest) :
    rxRead t = (rxTail rest).map fun r => ((List.range k).map (wireBit F) ++ r.1, r.2) := by
  rw [writtenLines_scheduleTrace_bits F hk] at h
  exact rxRead_of_writtenLines h

/-- The writes below a write entry are a part of the arm sequence, or whole bits, or whole bits and one bit signal:
none has the final reset. -/
theorem rxRead_ne_of_write {F : Frame} {i : Nat} {l : Line} (hen : entry i F = some (.write l)) {t : List Event}
    (ht : writtenLines t = writtenLines (scheduleTrace F i)) (bs : List Bool) : rxRead t ≠ some (bs, true) := by
  obtain ⟨rfl, -⟩ | ⟨rfl, -⟩ | ⟨k, hk, rfl, -⟩ | ⟨k, hk, rfl, -⟩ | ⟨rfl, -⟩ := entry_write_cases hen
  · have hwritten : writtenLines t = [] := ht
    simp [rxRead, hwritten]
  · have hwritten : writtenLines t = [resetLine] := ht
    simp [rxRead, hwritten]
  · rw [rxRead_of_bits hk.le (ht.trans (List.append_nil _).symm)]
    simp [rxTail]
  · rw [rxRead_of_bits hk.le (ht.trans (writtenLines_scheduleTrace_bit_standby F hk))]
    simp [rxTail, bitLine_ne_resetLine]
  · rw [writtenLines_scheduleTrace_final_reset] at ht
    rw [rxRead_of_bits le_rfl (ht.trans (List.append_nil _).symm)]
    simp [rxTail]

/-! ### The encoder and the normal form of its operands (R102, R110) -/

theorem encodeWith_normalDevice (T : Tables) (h : House) (d : Option Device) (c : Command) :
    encodeWith T h (normalDevice d c) c = encodeWith T h d c := by
  cases hc : c.deviceScoped with
  | true => simp [normalDevice, hc]
  | false => rw [encodeWith_houseScoped T hc, encodeWith_houseScoped T hc]

theorem normalised_normalDevice {T : Tables} {h : House} {d : Option Device} {c : Command} {F : Frame}
    (he : encodeWith T h d c = .ok F) : Normalised (normalDevice d c) c := by
  obtain ⟨-, -, herr⟩ | ⟨dev, hc, rfl, -⟩ | ⟨hc, -⟩ := encodeWith_cases T h d c
  · cases herr.symm.trans he
  · simp [Normalised, normalDevice, hc]
  · simp [Normalised, normalDevice, hc]

/-- Decoding over well-formed tables gives the normalised operands of the encoder's frame back. -/
theorem decodeFrameWith_of_encodeWith {T : Tables} (hT : TablesWf T) {h : House} {d : Option Device} {c : Command}
    {F : Frame} (he : encodeWith T h d c = .ok F) :
    decodeFrameWith T F = .ok (Instr.ofCommand h (normalDevice d c) c) :=
  (decodeFrameWith_eq_ok_iff hT F _).mpr ⟨h, normalDevice d c, c, normalised_normalDevice he, rfl,
    (encodeWith_normalDevice T h d c).trans he⟩

/-! ### A step of a transmission, by what it does (R202) -/

section
variable {s : State} {tx : Transmission} (hs : s.tx = some tx)
include hs

theorem step_wait (he : tx.err = none) {k : DelayKind} (hen : entry tx.spc tx.fr = some (.wait k)) :
    step s = .next (advance tx (delay k s)) := by
  simp only [step_running s tx hs, stepTransmission, he, hen, runEntry]

theorem step_write_ok (he : tx.err = none) {l : Line} (hen : entry tx.spc tx.fr = some (.write l))
    (hok : answerAt s 0 = .ok) : step s = .next (advance tx (afterWrite l s)) := by
  simp only [step_running s tx hs, stepTransmission, he, hen, runEntry, lineWrite_ok l s hok]
  rfl

theorem step_write_fail (he : tx.err = none) {l : Line} {e : IoError} {left : Line}
    (hen : entry tx.spc tx.fr = some (.write l)) (hf : answerAt s 0 = .fail e left) :
    step s = .next (afterAbort tx l e left s) := by
  simp only [step_running s tx hs, stepTransmission, he, hen, runEntry, lineWrite_fail l s e left hf]
  exact congrArg Host.Outcome.next (raise_ioError_running e _ tx hs)

/-- With no error and no entry at its position, a transmission has ended or is where no state is (R34). -/
theorem step_no_entry (he : tx.err = none) (hen : entry tx.spc tx.fr = none) :
    step s = if tx.spc = 168 then .next (finishRun tx s) else .fault .spcOutOfRange := by
  simp only [step_running s tx hs, stepTransmission, he, hen]

theorem step_ended (hend : tx.err ≠ none ∨ tx.spc = 168) : step s = .next (finishRun tx s) := by
  cases he : tx.err with
  | some e => simp only [step_running s tx hs, stepTransmission, he]
  | none =>
    have h168 : tx.spc = 168 := hend.resolve_left (absurd he)
    rw [step_no_entry hs he (entry_eq_none h168.ge tx.fr), if_pos h168]

/-- The phases of an ended run are done and fault (R33, R205, R220). -/
theorem ended_of_phase (hph : phase s = .done ∨ phase s = .fault) (hle : tx.spc ≤ 168) :
    tx.err ≠ none ∨ tx.spc = 168 := by
  refine or_iff_not_imp_left.mpr fun he => ?_
  rw [phase_running hs, txPhase, not_not.mp he] at hph
  split_ifs at hph
  case neg => omega
  all_goals simp at hph

end

theorem phase_eq_idle_iff (s : State) : phase s = .idle ↔ s.tx = none := by
  cases hs : s.tx with
  | none => simp [phase, hs]
  | some tx =>
    rw [phase_running hs, txPhase]
    refine iff_of_false ?_ nofun
    split
    · nofun
    · split_ifs <;> nofun

/-! ### A whole transmission, and `SEND` (R205, R226) -/

/-- A transmission with no failing line write, from its start to its return. -/
theorem steps_startRun_ok (F : Frame) {s : State} (hok : NoWriteFails 83 s) :
    steps 169 (startRun F s) = .next
      { s with tx := none, line := resetLine, dongle := .idle, trace := closedTrace F, result := some .ok,
               answers := s.answers.drop 83, asked := s.asked + 83 } := by
  have hrun := steps_startRun F s 168 le_rfl (writesBelow_168 F ▸ hok)
  rw [steps_add 168 1 _ _ hrun, steps_succ 0 _ _ (step_ended (tx := ⟨F, 168, none⟩) rfl (.inr rfl)), steps_zero]
  simp [finishRun, midRun, runResult, lastWrite_168, scheduleTrace_168, writesBelow_168]

/-- With no transmission in progress, the caller's next operation is performed. -/
theorem step_caller {s : State} {op : CallerOp} {rest : List CallerOp} (hs : s.tx = none)
    (hops : s.ops = op :: rest) : step s = performOp op (beginOp rest s) := by
  simp only [step_idle s hs, stepIdle, hops]

theorem step_send_ok {s : State} {h : House} {d : Option Device} {c : Command} {F : Frame} {rest : List CallerOp}
    (hs : s.tx = none) (hops : s.ops = .send h d c :: rest) (he : encodeCommand h d c = .ok F) :
    step s = .next (startRun F (beginOp rest s)) := by
  rw [encodeCommand] at he
  simp only [step_caller hs hops, performOp, callSend, callSendWith, he, callTransmit]
  exact whenIdle_idle _ _ hs

theorem step_send_without_device {s : State} {h : House} {c : Command} {rest : List CallerOp}
    (hc : c.deviceScoped = true) (hs : s.tx = none) (hops : s.ops = .send h none c :: rest) :
    step s = .next (returned (.err .deviceRequired) (beginOp rest s)) := by
  simp only [step_caller hs hops, performOp, callSend, callSendWith, encodeWith_without_device specTables hc h,
    raise_deviceRequired]

end Sys2Proof.Machine

namespace Sys2Proof.Proofs

open Sys2Proof.Machine

/-- Settles O51: the reading takes the forty bits off the closed form, the bits spell the frame, and the decoders
invert the encoder. -/
theorem wireCarriesTheFrame : Obligations.WireCarriesTheFrame :=
  ⟨fun F => ⟨congrArg (Option.map Prod.fst) (rxRead_closedTrace F), rxFrame_closedTrace F⟩,
    fun _ _ _ _ => decodeFrame_of_encodeCommand,
    fun _ hT _ _ _ F he => ⟨F, rxFrame_closedTrace F, decodeFrameWith_of_encodeWith hT.wellFormed he⟩⟩

/-- Settles O53: one step to take the operation, then the whole transmission of its frame. -/
theorem sendDeliversTheCommand : Obligations.SendDeliversTheCommand := by
  intro s h d c F rest hs hops he hok
  have hrun := steps_startRun_ok F (s := beginOp rest s) hok
  rw [← steps_succ 169 s _ (step_send_ok hs hops he)] at hrun
  exact ⟨_, F, hrun, rfl, rfl, rfl, rxFrame_closedTrace F, decodeFrame_of_encodeCommand he⟩

/-- Settles O43, by where the transmission stands after its 168 entries. -/
theorem successfulTransmission : Obligations.SuccessfulTransmission :=
  fun _ F hok => steps_startRun_ok F hok

/-- Settles O38: whatever the frames, the entry is the same wait, or a write, or there is none, and the driver
answers both writes alike. -/
theorem frameDoesNotSteer : Obligations.FrameDoesNotSteer := by
  intro s s' t F F' n hs hs' ha hk h
  have hans : answerAt s' 0 = answerAt s 0 := answerAt_congr ha.symm hk.symm 0
  obtain ⟨k, hen, hen'⟩ | ⟨l, l', hen, hen'⟩ | ⟨hen, hen'⟩ := entry_kind_cases n F F'
  · cases (step_wait hs rfl hen).symm.trans h
    exact ⟨_, step_wait hs' rfl hen', ha, hk, rfl, rfl, rfl⟩
  · have hanswers := congrArg List.tail ha
    have hasked := congrArg Nat.succ hk
    cases hanswer : answerAt s 0 with
    | ok =>
      cases (step_write_ok hs rfl hen hanswer).symm.trans h
      exact ⟨_, step_write_ok hs' rfl hen' (hans.trans hanswer), hanswers, hasked, rfl, rfl, rfl⟩
    | fail e left =>
      cases (step_write_fail hs rfl hen hanswer).symm.trans h
      exact ⟨_, step_write_fail hs' rfl hen' (hans.trans hanswer), hanswers, hasked, rfl, rfl, rfl⟩
  · rw [step_no_entry hs rfl hen] at h
    split_ifs at h with h168
    cases h
    exact ⟨_, step_ended hs' (.inr h168), ha, hk, rfl, rfl, rfl⟩

/-- Settles O45: the counts of the closed form bit by bit, and the one bits of a frame byte by byte. -/
theorem scheduleTraceAndCounts : Obligations.ScheduleTraceAndCounts := by
  refine ⟨fun F => ⟨scheduleTrace_168 F, length_closedTrace F, count_settled_closedTrace F,
    count_commandWaited_closedTrace F, length_writtenLines_closedTrace F, count_resetLine_closedTrace F,
    count_standbyLine_closedTrace F, count_bitLine_closedTrace F true, count_bitLine_closedTrace F false,
    List.count_true_add_count_false (wireBits F)⟩, fun F h0 h1 h4 => ?_,
    fun h d c F => count_true_encodeCommand, ⟨_, rfl, by decide⟩, ⟨_, rfl, by decide⟩⟩
  rw [eq_middleFrame h0 h1 h4, header_footer_middleFrame, count_true_middleFrame]
  have h2 := oneBits_le (frameByte F 2)
  have h3 := oneBits_le (frameByte F 3)
  exact ⟨by decide, by decide, by omega, by omega⟩

/-- Settles O50: the delays of the closed form, each at its least duration. -/
theorem leastDurationOfTransmission : Obligations.LeastDurationOfTransmission := by
  intro t F
  rw [leastDuration_scheduleTrace]
  refine ⟨rfl, fun ⟨_, _, hcommand, _⟩ => ?_⟩
  omega

/-- Settles O52: a failed write puts no value on the lines, and the writes before it lack the final reset. -/
theorem faultedTraceIsNoFrame : Obligations.FaultedTraceIsNoFrame := by
  intro F i l e hen
  refine rxFrame_eq_none (rxRead_ne_of_write hen ?_)
  rw [writtenLines_append, writtenLines_failed, List.append_nil]

/-- Settles O32, by whether a transmission is in progress. -/
theorem transmitStarts : Obligations.TransmitStarts := by
  refine ⟨fun F s hph => whenIdle_idle s _ ((phase_eq_idle_iff s).mp hph), fun F s t h => ?_⟩
  cases hs : s.tx with
  | some tx => cases (whenIdle_busy s (startRun F s) tx hs).symm.trans h
  | none =>
    cases (whenIdle_idle s (startRun F s) hs).symm.trans h
    exact ⟨(phase_eq_idle_iff s).mpr hs, rfl, rfl⟩

/-- Settles O33: outside the bit window by the table, inside it by the sub-step. -/
theorem scheduleEntries : Obligations.ScheduleEntries := by
  refine ⟨fun F => ⟨rfl, rfl, rfl, rfl, rfl, fun k hk => ?_, rfl, rfl, rfl, fun i hi => entry_eq_none hi F⟩,
    fun F G i hi => entry_eq_of_not_bit_signal hi F G⟩
  have substep {j : Nat} (hj : j < 4) : entry (5 + j + 4 * k) F = some (bitEntry F k j) := by
    rw [Nat.add_right_comm]
    exact entry_bit F hk hj
  exact ⟨substep (by omega : 0 < 4), substep (by omega : 1 < 4), substep (by omega : 2 < 4),
    substep (by omega : 3 < 4)⟩

/-- Settles O34, by the kind of the entry and the driver's answer; only the last delay reaches 168. -/
theorem stepExecutesOneEntry : Obligations.StepExecutesOneEntry := by
  intro s tx hs
  refine ⟨fun he _ => ⟨fun k hen => ?_, fun l hen hok => ?_, fun l e left hen hf => step_write_fail hs he hen hf⟩,
    fun hend => ⟨_, step_ended hs hend, rfl, rfl, rfl⟩⟩
  · rw [step_wait hs he hen, advance, he]
    rfl
  · rw [step_write_ok hs he hen hok, advance, he, if_neg (succ_ne_168_of_write hen)]
    rfl

/-- Settles O35, by the two ways a run ends. -/
theorem runReturnsItsResult : Obligations.RunReturnsItsResult := by
  intro s tx hs
  refine ⟨fun he h168 => ?_, fun e he => ?_,
    fun hph hle => ⟨_, step_ended hs (ended_of_phase hs hph hle), rfl⟩⟩
  · rw [step_ended hs (.inr h168), finishRun, runResult, he]
  · rw [step_ended hs (.inl (by simp [he])), finishRun, runResult, he]

/-- Settles O54: the encoder raises, and its error goes to the caller. -/
theorem sendWithoutDevice : Obligations.SendWithoutDevice :=
  fun _ _ c _ hc hs hops => step_send_without_device ((deviceScoped_iff c).mpr hc) hs hops

end Sys2Proof.Proofs

/-! PROOFS. The statements of 60_exceptions.md: the abort of a transmission, what stops a step, and the lines between
arming and the final reset. -/

namespace Sys2Proof.Machine

/-! ### The abort (R258, R220) -/

section
variable {s : State} {tx : Transmission} {l : Line} {e : IoError} {left : Line}

theorem phase_afterAbort : phase (afterAbort tx l e left s) = .fault := rfl

/-- An aborted transmission hands its error to the caller in the next step, which does nothing else. -/
theorem step_afterAbort : step (afterAbort tx l e left s) =
    .next { afterAbort tx l e left s with tx := none, result := some (.err (.ioError e)) } :=
  step_ended (s := afterAbort tx l e left s) rfl (.inl nofun)

/-- A failing line write of a transmission, and the return of its error. -/
theorem steps_write_fail (hs : s.tx = some tx) (he : tx.err = none) (hen : entry tx.spc tx.fr = some (.write l))
    (hf : answerAt s 0 = .fail e left) : steps 2 s =
      .next { afterAbort tx l e left s with tx := none, result := some (.err (.ioError e)) } := by
  rw [steps_succ 1 _ _ (step_write_fail hs he hen hf), steps_succ 0 _ _ step_afterAbort, steps_zero]

end

/-- A transmission whose first failing line write is that of entry `i`, from its start to its return. -/
theorem steps_startRun_fail {F : Frame} {s : State} {i : Nat} {l : Line} {e : IoError} {left : Line}
    (hen : entry i F = some (.write l)) (hok : NoWriteFails (writesBelow F i) s)
    (hf : answerAt s (writesBelow F i) = .fail e left) :
    steps (i + 2) (startRun F s) = .next
      { s with tx := none, line := left, dongle := .unknown, trace := scheduleTrace F i ++ [.failed l e],
               result := some (.err (.ioError e)), answers := s.answers.drop (writesBelow F i + 1),
               asked := s.asked + (writesBelow F i + 1) } := by
  have hrun : steps i (startRun F s) = .next (midRun F s i) :=
    steps_startRun F s i (lt_of_entry_eq_some hen).le hok
  have hfail : answerAt (midRun F s i) 0 = .fail e left := (answerAt_midRun F s i 0).trans hf
  rw [steps_add i 2 _ _ hrun, steps_write_fail (tx := ⟨F, i, none⟩) rfl rfl hen hfail]
  simp [afterAbort, midRun, Nat.add_assoc]

/-! ### What stops a step (R254) -/

/-- With its position in range, a transmission always has a next state (R34). -/
theorem step_running_total {s : State} {tx : Transmission} (hs : s.tx = some tx) (hle : tx.spc ≤ 168) :
    ∃ t, step s = .next t := by
  rw [step_running s tx hs]
  obtain ⟨-, h⟩ | ⟨-, k, -, h⟩ | ⟨-, l, -, -, h⟩ | ⟨-, l, e, left, -, -, h⟩ | ⟨-, hgt, -⟩ :=
    stepTransmission_cases tx s hs
  case inr.inr.inr.inr => exact absurd hle (Nat.not_le.mpr hgt)
  all_goals exact ⟨_, h⟩

/-- With no transmission in progress, every instruction has a next state. -/
theorem exec_idle_total (i : Instr) {s : State} (hs : s.tx = none) : ∃ t, exec i s = .next t := by
  obtain ⟨r, h⟩ | ⟨tx, htx, -⟩ | ⟨l, -, -, h⟩ | ⟨l, e, left, -, -, h⟩ := exec_cases i s
  case inr.inl => cases hs.symm.trans htx
  all_goals exact ⟨_, h⟩

theorem callSend_idle_total (h : House) (d : Option Device) (c : Command) {s : State} (hs : s.tx = none) :
    ∃ t, callSend h d c s = .next t := by
  rw [callSend, callSendWith]
  cases encodeWith specTables h d c with
  | ok F => exact ⟨_, whenIdle_idle s _ hs⟩
  | error e => exact ⟨_, rfl⟩

/-- An operation of the caller with no transmission in progress: it has a next state, or it is a word that encodes no
instruction and is refused (R111). -/
theorem performOp_idle_cases (op : CallerOp) {s : State} (hs : s.tx = none) :
    (∃ t, performOp op s = .next t) ∨
    (∃ bytes why, op = .word bytes ∧ decode bytes = .error why ∧
      performOp op s = .refused (.notAnOperation why)) := by
  cases op with
  | word bytes =>
    rw [performOp]
    cases hdec : decode bytes with
    | ok i => exact .inl (exec_idle_total i hs)
    | error why => exact .inr ⟨bytes, why, rfl, hdec, rfl⟩
  | call i => exact .inl (exec_idle_total i hs)
  | sendBit b => exact .inl ⟨_, whenIdle_idle s _ hs⟩
  | sendByte v => exact .inl ⟨_, whenIdle_idle s _ hs⟩
  | transmit F => exact .inl ⟨_, whenIdle_idle s _ hs⟩
  | send h d c => exact .inl (callSend_idle_total h d c hs)

/-- A step where the invariant holds: it has a next state, or the caller's next operation is a word that encodes no
instruction and is refused. -/
theorem step_cases_of_inv {s : State} (hi : Inv s) :
    (∃ t, step s = .next t) ∨
    (s.tx = none ∧ ∃ bytes rest why, s.ops = .word bytes :: rest ∧ decode bytes = .error why ∧
      step s = .refused (.notAnOperation why)) := by
  cases hs : s.tx with
  | some tx => exact .inl (step_running_total hs (hi tx hs).inRange)
  | none =>
    cases hops : s.ops with
    | nil => exact .inl ⟨s, by rw [step_idle s hs, stepIdle, hops]⟩
    | cons op rest =>
      rw [step_caller hs hops]
      obtain h | ⟨bytes, why, rfl, hdec, h⟩ := performOp_idle_cases op (s := beginOp rest s) hs
      · exact .inl h
      · exact .inr ⟨rfl, bytes, rest, why, rfl, hdec, h⟩

/-! ### The lines between arming and the final reset (R274) -/

theorem line_ne_resetLine_iff (l : Line) : l ≠ resetLine ↔ l.rts = true ∨ l.dtr = true := by
  obtain ⟨rts, dtr⟩ := l
  revert rts dtr
  decide

/-- From entry 2 on, and before the final reset, the last value written is not reset: entry 2 writes standby, and
only entries 0 and 166 write reset. -/
theorem lastWrite_ne_resetLine (F : Frame) {i : Nat} (hlow : 3 ≤ i) :
    i ≤ 166 → ∃ l, lastWrite F i = some l ∧ l ≠ resetLine := by
  induction i, hlow using Nat.le_induction with
  | base => exact fun _ => ⟨standbyLine, rfl, resetLine_ne_standbyLine.symm⟩
  | succ i hlow ih =>
    intro hhigh
    obtain ⟨en, hen⟩ := Option.isSome_iff_exists.mp ((entry_isSome i F).trans (decide_eq_true (by omega)))
    cases en with
    | wait k => exact lastWrite_succ_wait F i k hen ▸ ih (by omega)
    | write l =>
      refine ⟨l, lastWrite_succ_write F i l hen, ?_⟩
      rintro rfl
      have := (entry_write_resetLine_iff F i).mp hen
      omega

end Sys2Proof.Machine

namespace Sys2Proof.Proofs

open Sys2Proof.Machine

/-- Settles O36, by the step that aborts and the step that returns. -/
theorem failedWriteAborts : Obligations.FailedWriteAborts :=
  fun _ _ _ _ _ hs he hen hf =>
    ⟨_, _, step_write_fail hs he hen hf, rfl, phase_afterAbort, rfl, rfl, rfl, step_afterAbort, rfl⟩

/-- Settles O42, by all that a step can do where the invariant holds. -/
theorem nothingElseStops : Obligations.NothingElseStops := by
  intro s hi
  obtain ⟨t, h⟩ | ⟨hs, bytes, rest, why, hops, hdec, h⟩ := step_cases_of_inv hi
  all_goals rw [h]
  · exact ⟨nofun, nofun⟩
  · refine ⟨nofun, fun r hr => ?_⟩
    cases hr
    exact ⟨hs, bytes, rest, why, hops, hdec, rfl⟩

/-- Settles O44, by where the transmission stands when its write fails. -/
theorem faultedTransmission : Obligations.FaultedTransmission :=
  fun _ _ _ _ _ _ hen hok hf => steps_startRun_fail hen hok hf

/-- Settles O49: LINE holds the last value written, and that is not reset. -/
theorem aLineStaysAsserted : Obligations.ALineStaysAsserted := by
  intro s tx hs hi he hlow hhigh
  obtain ⟨l, hlast, hne⟩ := lastWrite_ne_resetLine tx.fr hlow hhigh
  rw [(hi tx hs).goingLine he l hlast]
  exact (line_ne_resetLine_iff l).mp hne

end Sys2Proof.Proofs

/-! PROOFS. The statements of 70_reset_and_hazards.md: what the schedule has done before each of its writes, the
hazard rules it keeps, and the taking of the caller's operations. -/

namespace Sys2Proof.Machine

/-! ### The trace before each write of the schedule -/

/-- One bit further, one `SENDBIT` more. -/
theorem scheduleTrace_bits_succ (F : Frame) {k : Nat} (hk : k < 40) :
    scheduleTrace F (5 + 4 * (k + 1)) = scheduleTrace F (5 + 4 * k) ++ bitEvents (wireBit F k) := by
  rw [scheduleTrace_bits F (k + 1) hk, scheduleTrace_bits F k hk.le, List.range_succ, List.map_append,
    List.flatMap_append, ← List.append_assoc]
  simp

theorem scheduleTrace_bit_standby (F : Frame) {k : Nat} (hk : k < 40) :
    scheduleTrace F (7 + 4 * k) = scheduleTrace F (5 + 4 * k) ++ [.wrote (bitLine (wireBit F k)), .settled] := by
  have hsignal : entry (5 + 4 * k) F = some (.write (bitLine (wireBit F k))) := entry_bit F hk (by omega : 0 < 4)
  have hsettle : entry (5 + 4 * k + 1) F = some (.wait .settle) := entry_bit F hk (by omega)
  rw [show 7 + 4 * k = 5 + 4 * k + 1 + 1 by omega, scheduleTrace_succ F _ _ hsettle, scheduleTrace_succ F _ _ hsignal,
    List.append_assoc]
  rfl

theorem scheduleTrace_final_reset (F : Frame) :
    scheduleTrace F 166 = scheduleTrace F (5 + 4 * 40) ++ [.commandWaited] :=
  scheduleTrace_succ F _ _ (entry_disarm_wait F)

/-! ### The counts before each write (R316) -/

theorem writesBelow_bits (F : Frame) {k : Nat} (hk : k ≤ 40) : writesBelow F (5 + 4 * k) = 2 + 2 * k := by
  rw [writesBelow_eq_length, writtenLines_scheduleTrace_bits F hk]
  simp only [List.length_cons, List.length_flatMap, List.length_nil, List.map_map, Function.comp_def, List.map_const',
    List.length_range, List.sum_replicate_nat]
  omega

theorem writesBelow_bit_standby (F : Frame) {k : Nat} (hk : k < 40) : writesBelow F (7 + 4 * k) = 3 + 2 * k := by
  rw [writesBelow_eq_length, writtenLines_scheduleTrace_bit_standby F hk, List.length_append,
    ← writesBelow_eq_length, writesBelow_bits F hk.le, List.length_singleton]
  omega

theorem writesBelow_final_reset (F : Frame) : writesBelow F 166 = 82 := by
  rw [writesBelow_eq_length, writtenLines_scheduleTrace_final_reset, ← writesBelow_eq_length,
    writesBelow_bits F le_rfl]

theorem count_settled_scheduleTrace_bits (F : Frame) {k : Nat} (hk : k ≤ 40) :
    (scheduleTrace F (5 + 4 * k)).count .settled = 2 + 2 * k := by
  rw [scheduleTrace_bits F k hk, List.count_append, count_flatMap_of_const (n := 2) fun b => by cases b <;> rfl,
    List.length_map, List.length_range]
  rfl

theorem count_commandWaited_scheduleTrace_bits (F : Frame) {k : Nat} (hk : k ≤ 40) :
    (scheduleTrace F (5 + 4 * k)).count .commandWaited = 1 := by
  rw [scheduleTrace_bits F k hk, List.count_append, count_flatMap_of_const (n := 0) fun b => by cases b <;> rfl,
    Nat.zero_mul]
  rfl

/-- At a write of the schedule every write before it has had its settle. -/
theorem count_settled_of_write {i : Nat} {F : Frame} {l : Line} (h : entry i F = some (.write l)) :
    (scheduleTrace F i).count .settled = writesBelow F i := by
  obtain ⟨rfl, -⟩ | ⟨rfl, -⟩ | ⟨k, hk, rfl, -⟩ | ⟨k, hk, rfl, -⟩ | ⟨rfl, -⟩ := entry_write_cases h
  · rfl
  · rfl
  · rw [count_settled_scheduleTrace_bits F hk.le, writesBelow_bits F hk.le]
  · rw [scheduleTrace_bit_standby F hk, List.count_append, count_settled_scheduleTrace_bits F hk.le,
      writesBelow_bit_standby F hk, show 3 + 2 * k = 2 + 2 * k + 1 by omega]
    rfl
  · rw [scheduleTrace_final_reset, List.count_append, count_settled_scheduleTrace_bits F le_rfl,
      writesBelow_final_reset]
    rfl

/-- The arm wait comes before the bit window, the disarm wait after it. -/
theorem count_commandWaited_of_write {i : Nat} {F : Frame} {l : Line} (h : entry i F = some (.write l)) :
    (scheduleTrace F i).count .commandWaited = if i ≤ 4 then 0 else if i ≤ 165 then 1 else 2 := by
  obtain ⟨rfl, -⟩ | ⟨rfl, -⟩ | ⟨k, hk, rfl, -⟩ | ⟨k, hk, rfl, -⟩ | ⟨rfl, -⟩ := entry_write_cases h
  · rfl
  · rfl
  · rw [count_commandWaited_scheduleTrace_bits F hk.le, if_neg (by omega), if_pos (by omega)]
  · rw [scheduleTrace_bit_standby F hk, List.count_append, count_commandWaited_scheduleTrace_bits F hk.le,
      if_neg (by omega), if_pos (by omega)]
    rfl
  · rw [scheduleTrace_final_reset, List.count_append, count_commandWaited_scheduleTrace_bits F le_rfl]
    rfl

/-! ### The hazard rules of the schedule (R304 to R307) -/

theorem settle_after_write {i : Nat} {F : Frame} {l : Line} (h : entry i F = some (.write l)) :
    entry (i + 1) F = some (.wait .settle) := by
  obtain ⟨rfl, -⟩ | ⟨rfl, -⟩ | ⟨k, hk, rfl, -⟩ | ⟨k, hk, rfl, -⟩ | ⟨rfl, -⟩ := entry_write_cases h
  · rfl
  · rfl
  · exact entry_bit F hk (by omega : 1 < 4)
  · rw [show 7 + 4 * k + 1 = 5 + 4 * k + 3 by omega]
    exact entry_bit F hk (by omega)
  · rfl

/-- The schedule signals bits only at the forty starts of a bit. -/
theorem bit_start_of_entry_write_bitLine {F : Frame} {i : Nat} {b : Bool}
    (h : entry i F = some (.write (bitLine b))) : ∃ k, k < 40 ∧ i = 5 + 4 * k := by
  obtain ⟨-, hl⟩ | ⟨-, hl⟩ | ⟨k, hk, hi, -⟩ | ⟨k, -, -, hl⟩ | ⟨-, hl⟩ := entry_write_cases h
  · exact absurd hl (bitLine_ne_resetLine b)
  · exact absurd hl (bitLine_ne_standbyLine b)
  · exact ⟨k, hk, hi⟩
  · exact absurd hl (bitLine_ne_standbyLine b)
  · exact absurd hl (bitLine_ne_resetLine b)

/-- Directly before the final reset come the last bit and the disarm wait. -/
theorem scheduleTrace_final_reset_suffix (F : Frame) :
    bitEvents (wireBit F 39) ++ [.commandWaited] <:+ scheduleTrace F 166 := by
  rw [scheduleTrace_final_reset, scheduleTrace_bits_succ F (by omega : 39 < 40), List.append_assoc]
  exact List.suffix_append _ _

/-! ### The caller's operations -/

theorem callSendWith_ok {T : Tables} {h : House} {d : Option Device} {c : Command} {F : Frame}
    (he : encodeWith T h d c = .ok F) (s : State) : callSendWith T h d c s = callTransmit F s := by
  simp only [callSendWith, he]

/-- The encoder's only error is `DeviceRequired`, and it goes to the caller. -/
theorem callSendWith_error {T : Tables} {h : House} {d : Option Device} {c : Command} {e : OpError}
    (he : encodeWith T h d c = .error e) (s : State) : callSendWith T h d c s = .next (returned (.err e) s) := by
  obtain ⟨-, -, hreq⟩ | ⟨dev, -, -, hok⟩ | ⟨-, hok⟩ := encodeWith_cases T h d c
  · cases hreq.symm.trans he
    simp only [callSendWith, hreq, raise_deviceRequired]
  · cases hok.symm.trans he
  · cases hok.symm.trans he

theorem performOp_word_ok {bytes : List Byte} {i : Instr} (hdec : decode bytes = .ok i) (s : State) :
    performOp (.word bytes) s = exec i s := by
  simp only [performOp, hdec]

theorem performOp_word_error {bytes : List Byte} {why : DecodeError} (hdec : decode bytes = .error why) (s : State) :
    performOp (.word bytes) s = .refused (.notAnOperation why) := by
  simp only [performOp, hdec]

theorem performOpWith_word_ok {T : Tables} {bytes : List Byte} {i : Instr} (hdec : decodeWith T bytes = .ok i)
    (s : State) : performOpWith T (.word bytes) s = execWith T i s := by
  simp only [performOpWith, hdec]

theorem performOpWith_word_error {T : Tables} {bytes : List Byte} {why : DecodeError}
    (hdec : decodeWith T bytes = .error why) (s : State) :
    performOpWith T (.word bytes) s = .refused (.notAnOperation why) := by
  simp only [performOpWith, hdec]

/-- With no transmission in progress, the caller's next operation is performed, over any tables. -/
theorem stepWith_caller (T : Tables) {s : State} {op : CallerOp} {rest : List CallerOp} (hs : s.tx = none)
    (hops : s.ops = op :: rest) : stepWith T s = performOpWith T op (beginOp rest s) := by
  simp only [stepWith, hs, hops]

/-- An operation that is performed alike over any tables makes the same step. -/
theorem stepWith_eq_step_of_performOp {T : Tables} {s : State} {op : CallerOp} {rest : List CallerOp}
    (hops : s.ops = op :: rest) (hop : ∀ t, performOpWith T op t = performOp op t) : stepWith T s = step s := by
  cases hs : s.tx with
  | some tx => exact stepWith_running T hs
  | none => rw [stepWith_caller T hs hops, step_caller hs hops, hop]

theorem stepWith_eq_step_of_no_ops (T : Tables) {s : State} (hops : s.ops = []) : stepWith T s = step s := by
  cases hs : s.tx with
  | some tx => exact stepWith_running T hs
  | none => simp only [stepWith, hs, hops]

end Sys2Proof.Machine

namespace Sys2Proof.Proofs

open Sys2Proof.Machine

/-- Settles O46, by the trace before each of the five groups of writes. -/
theorem countsBeforeAnEntry : Obligations.CountsBeforeAnEntry :=
  fun F => ⟨rfl, rfl, writesBelow_final_reset F,
    fun _ hk => ⟨writesBelow_bits F hk.le, writesBelow_bit_standby F hk⟩,
    fun i _ hen => ⟨(writesBelow_eq_length F i).symm, count_settled_of_write hen, count_commandWaited_of_write hen⟩⟩

/-- Settles O47: bits are signalled only at the starts of the bit window, and a reset that is not the first is the
final one. -/
theorem scheduleKeepsHazardRules : Obligations.ScheduleKeepsHazardRules := by
  intro F i l hen
  refine ⟨settle_after_write hen, ?_, ?_⟩
  · rintro b rfl
    obtain ⟨k, hk, rfl⟩ := bit_start_of_entry_write_bitLine hen
    refine ⟨entry_bit F hk (by omega : 2 < 4), ?_⟩
    rw [scheduleTrace_bits F k hk.le]
    exact List.prefix_append _ _
  · rintro rfl hi
    obtain rfl : i = 166 := ((entry_write_resetLine_iff F i).mp hen).resolve_left hi
    exact ⟨count_commandWaited_of_write hen, _, scheduleTrace_final_reset_suffix F⟩

/-- Settles O29: every writer of the lines asks first whether a transmission is in progress, and nothing else in an
instruction refuses. -/
theorem busyHandleRefused : Obligations.BusyHandleRefused := by
  refine ⟨fun s tx hs => ?_, fun i s r h => ?_⟩
  · have busy (t : State) : whenIdle s t = .refused .handleBusy := whenIdle_busy s t tx hs
    exact ⟨busy _, busy _, busy _, busy _, fun _ => busy _, fun _ => busy _, fun _ => busy _,
      fun _ _ _ _ he => (callSendWith_ok he s).trans (busy _)⟩
  · obtain ⟨_, e⟩ | ⟨tx, hs, e⟩ | ⟨l, -, -, e⟩ | ⟨l, io, left, -, -, e⟩ := exec_cases i s
    case inr.inl =>
      cases e.symm.trans h
      exact ⟨rfl, by simp [hs]⟩
    all_goals cases e.symm.trans h

/-- Settles O55, by the kind of the caller's next operation; over any tables only words, instructions and `SEND`
differ. -/
theorem stepRunsTheDecodedInstruction : Obligations.StepRunsTheDecodedInstruction := by
  refine ⟨fun _ _ _ _ hs hops hdec => (step_caller hs hops).trans (performOp_word_ok hdec _),
    fun _ _ _ hs hops => step_caller hs hops,
    fun _ _ _ hs hops => ⟨step_caller hs hops, (step_caller hs hops).trans (whenIdle_idle _ _ hs)⟩,
    fun _ _ _ hs hops => step_caller hs hops,
    fun _ _ _ hs hops => step_caller hs hops,
    fun _ _ _ _ _ _ hs hops he => (step_caller hs hops).trans (callSendWith_ok he _),
    fun _ _ _ _ hs hops hdec => (step_caller hs hops).trans (performOp_word_error hdec _),
    fun T _ hs => ?running,
    fun T _ _ _ _ hs hops hdec => (stepWith_caller T hs hops).trans (performOpWith_word_ok hdec _),
    fun T _ _ _ hs hops => stepWith_caller T hs hops,
    fun T _ _ _ _ _ _ hs hops he =>
      (stepWith_caller T hs hops).trans ((callSendWith_ok he _).trans (whenIdle_idle _ _ hs)),
    fun T _ _ _ _ _ _ hs hops he => (stepWith_caller T hs hops).trans (callSendWith_error he _),
    fun T _ _ _ _ hs hops hdec => (stepWith_caller T hs hops).trans (performOpWith_word_error hdec _),
    fun T s rest hops => ?sameOperation,
    fun _ _ => ⟨rfl, rfl, rfl, rfl⟩⟩
  case running =>
    obtain ⟨tx, htx⟩ := Option.ne_none_iff_exists'.mp hs
    exact stepWith_running T htx
  case sameOperation =>
    obtain hops | ⟨F, hops⟩ | ⟨b, hops⟩ | ⟨v, hops⟩ := hops
    · exact stepWith_eq_step_of_no_ops T hops
    all_goals exact stepWith_eq_step_of_performOp hops fun _ => rfl

/-- Settles O56: with no transmission and no operation to come, the step leaves the state as it is. -/
theorem idleBlockHoldsItsLines : Obligations.IdleBlockHoldsItsLines := by
  intro s hs hops
  rw [step_idle s hs, stepIdle, hops]

end Sys2Proof.Proofs
